-- ==== Sys2Proof/Word.lean ====
section
/-! DEFINITION. The word of the machine: one signed 64-bit cell value (spec/00_scope.md R7 `WORD_BITS`, R8; spec/20_memory.md R56),
and one operand slot of an instruction: its addressing mode and its raw value (spec/00_scope.md R16, spec/30_encoding.md R70, R73). -/

namespace Sys2Proof

/-- A cell value: `int64`, held in 64-bit two's complement (decision D27). The integer it denotes is `BitVec.toInt`. -/
abbrev Word := BitVec 64

/-- How a parameter's raw value maps to an effective value or address (R16, R73). -/
inductive Mode where
  /-- The raw value is an address (mode digit 0). -/
  | position
  /-- The raw value is the operand (mode digit 1). -/
  | immediate
  /-- The raw value is an offset added to the relative base (mode digit 2). -/
  | relative
  deriving DecidableEq, Repr

/-- One operand slot: the addressing mode its instruction word gives it and the raw value of its parameter cell (R70, R82). -/
structure Param where
  mode : Mode
  raw : Word
  deriving DecidableEq, Repr

end Sys2Proof
end

