-- ==== Sys2Proof/Syntax.lean ====
section
/-! DEFINITION. The instruction set: one constructor per row of spec/opcode_table.json (spec/30_encoding.md R72). -/

namespace Sys2Proof

/-- An instruction: its operation and its ordered parameters, each with its addressing mode (R70, R72). `a`, `b` are read slots and
`t` is the write slot. -/
inductive Instr where
  /-- ADD (opcode 1), R120. -/
  | add (a b t : Param)
  /-- MUL (opcode 2), R121. -/
  | mul (a b t : Param)
  /-- IN (opcode 3), R130. -/
  | inp (t : Param)
  /-- OUT (opcode 4), R131. -/
  | out (a : Param)
  /-- JT (opcode 5), R140. -/
  | jt (a b : Param)
  /-- JF (opcode 6), R141. -/
  | jf (a b : Param)
  /-- LT (opcode 7), R150. -/
  | lt (a b t : Param)
  /-- EQ (opcode 8), R151. -/
  | eq (a b t : Param)
  /-- ARB (opcode 9), R160. -/
  | arb (a : Param)
  /-- HALT (opcode 99), R161. -/
  | halt
  deriving DecidableEq, Repr

end Sys2Proof
end

