-- ==== Sys2Proof/WellFormed.lean ====
section
/-! DEFINITION. Which terms of `Instr` are instructions: a write slot is never in Immediate mode (spec/30_encoding.md R79, R84).
Every other combination of modes and every raw value is legal (R82, R84). -/

namespace Sys2Proof

/-- Immediate is "only legal for read operands, never for write targets" (R79). -/
def Param.writable (p : Param) : Bool :=
  match p.mode with
  | .position => true
  | .immediate => false
  | .relative => true

/-- The instruction is one of the 99 legal words with its parameter cells (R84). -/
def Instr.wf (i : Instr) : Bool :=
  match i with
  | .add _ _ t => t.writable
  | .mul _ _ t => t.writable
  | .inp t => t.writable
  | .out _ => true
  | .jt _ _ => true
  | .jf _ _ => true
  | .lt _ _ t => t.writable
  | .eq _ _ t => t.writable
  | .arb _ => true
  | .halt => true

end Sys2Proof
end

