-- ==== Sys2Proof/Decode.lean ====
section
/-! DEFINITION. The decoder and the encoder (spec/30_encoding.md R70-R91). The instruction word is read by decimal digits (R9, R71).
The decoder is total on every word (R85) and rejects by name. -/

namespace Sys2Proof

/-- Why a word is no instruction (R85): the three decode causes of spec/60_exceptions.md R171. -/
inductive DecodeError where
  /-- `W < 0`, or `W mod 100` names no opcode (R77, R78). -/
  | unknownOpcode
  /-- A digit beyond the parameter count, or a mode digit 3 .. 9 (R75, R76). -/
  | illegalMode
  /-- The write slot's mode digit is 1 (R79). -/
  | immediateWrite
  deriving DecidableEq, Repr

/-- `digit(W, k)`: the k-th decimal digit of `W`, counting from 0 at the least significant end (R9). -/
def digit (w k : Nat) : Nat := w / 10 ^ k % 10

/-- The parameter count of an opcode; `none` where the table has no such opcode (R72, R78). -/
def paramCount (op : Nat) : Option Nat :=
  match op with
  | 1 => some 3
  | 2 => some 3
  | 3 => some 1
  | 4 => some 1
  | 5 => some 2
  | 6 => some 2
  | 7 => some 3
  | 8 => some 3
  | 9 => some 1
  | 99 => some 0
  | _ => none

/-- The mode a digit names (R73; digit 2 is the spec's decision D1, log 10); 3 .. 9 name none (R75). -/
def modeOfDigit (d : Nat) : Option Mode :=
  match d with
  | 0 => some .position
  | 1 => some .immediate
  | 2 => some .relative
  | _ => none

/-- Slots `k`, `k + 1`, .. (`n` of them) of the word `w`, in increasing order: slot `k`'s mode is digit `1 + k` (R71) and its raw
value is parameter cell `k` (R70). `none` where a mode digit names no mode (R75). -/
def decodeSlots (w : Nat) (raw : Nat → Word) (k : Nat) : Nat → Option (List Param)
  | 0 => some []
  | n + 1 =>
    match modeOfDigit (digit w (1 + k)) with
    | none => none
    | some m =>
      match decodeSlots w raw (k + 1) n with
      | none => none
      | some ps => some (⟨m, raw k⟩ :: ps)

/-- The constructor of each opcode, applied to its parameters in slot order (R72). -/
def assembleInstr (op : Nat) (ps : List Param) : Option Instr :=
  match op, ps with
  | 1, [a, b, t] => some (.add a b t)
  | 2, [a, b, t] => some (.mul a b t)
  | 3, [t] => some (.inp t)
  | 4, [a] => some (.out a)
  | 5, [a, b] => some (.jt a b)
  | 6, [a, b] => some (.jf a b)
  | 7, [a, b, t] => some (.lt a b t)
  | 8, [a, b, t] => some (.eq a b t)
  | 9, [a] => some (.arb a)
  | 99, [] => some .halt
  | _, _ => none

/-- The decoder of R85, its checks in R85's order: `W` is the instruction word and `raw k` the content of parameter cell `k`. -/
def decode (W : Word) (raw : Nat → Word) : Except DecodeError Instr :=
  if W.toInt < 0 then .error .unknownOpcode
  else
    match paramCount (W.toNat % 100) with
    | none => .error .unknownOpcode
    | some n =>
      if 10 ^ (2 + n) ≤ W.toNat then .error .illegalMode
      else
        match decodeSlots W.toNat raw 1 n with
        | none => .error .illegalMode
        | some ps =>
          match assembleInstr (W.toNat % 100) ps with
          | none => .error .unknownOpcode
          | some i => if i.wf then .ok i else .error .immediateWrite

/-- The parameters of an instruction in slot order. -/
def Instr.params (i : Instr) : List Param :=
  match i with
  | .add a b t => [a, b, t]
  | .mul a b t => [a, b, t]
  | .inp t => [t]
  | .out a => [a]
  | .jt a b => [a, b]
  | .jf a b => [a, b]
  | .lt a b t => [a, b, t]
  | .eq a b t => [a, b, t]
  | .arb a => [a]
  | .halt => []

/-- The instruction's length in cells, `1 + n` (R70, R83). -/
def Instr.length (i : Instr) : Nat := 1 + i.params.length

/-- The decoder on a list of cells: the instruction and the cells after it. A cell the list does not have reads 0, as memory that
nothing has written does (spec/20_memory.md R52). -/
def decodeCells (cells : List Word) : Except DecodeError (Instr × List Word) :=
  match decode (cells.getD 0 0#64) (fun k => cells.getD k 0#64) with
  | .error e => .error e
  | .ok i => .ok (i, cells.drop i.length)

/-! The encoder (R71, R72, R73, R91). -/

/-- The opcode of R72. -/
def Instr.opcode (i : Instr) : Nat :=
  match i with
  | .add _ _ _ => 1
  | .mul _ _ _ => 2
  | .inp _ => 3
  | .out _ => 4
  | .jt _ _ => 5
  | .jf _ _ => 6
  | .lt _ _ _ => 7
  | .eq _ _ _ => 8
  | .arb _ => 9
  | .halt => 99

/-- The mode digit of R73. -/
def Mode.digit (m : Mode) : Nat :=
  match m with
  | .position => 0
  | .immediate => 1
  | .relative => 2

/-- `100*M1 + 1000*M2 + 10000*M3`, absent slots contributing 0 (R91); `scale` is the weight of the first slot's digit. -/
def modeDigits (ps : List Param) (scale : Nat) : Nat :=
  match ps with
  | [] => 0
  | p :: rest => scale * p.mode.digit + modeDigits rest (10 * scale)

/-- `W = OP + 100*M1 + 1000*M2 + 10000*M3` (R91). -/
def Instr.word (i : Instr) : Nat := i.opcode + modeDigits i.params 100

/-- The `1 + n` cells of an instruction (R70, R91). -/
def encode (i : Instr) : List Word := BitVec.ofNat 64 i.word :: i.params.map (·.raw)

/-! The host's view of an instruction's bits. -/

/-- Cell `k` of an instruction whose bits are `w`, `nbits` of them given: bits `64*k + 63` .. `64*k`, and every bit above `nbits` is 0.
A cell is one 64-bit number, so it has no byte order to lay out (spec/20_memory.md R56; log 21). -/
def tableCell (nbits w k : Nat) : Word := BitVec.ofNat 64 (w % 2 ^ nbits / 2 ^ (64 * k))

/-- What the decoder reads from an instruction whose bits are `w`; `none` where it refuses. -/
def decodeTableWord (nbits w : Nat) : Option Instr :=
  match decode (tableCell nbits w 0) (tableCell nbits w) with
  | .error _ => none
  | .ok i => some i

end Sys2Proof
end

