-- ==== Sys2Proof/Config.lean ====
section
/-! DEFINITION. The implementation parameters of spec/00_scope.md R7 and the free value of the ring's scheduling
(spec/60_exceptions.md R195). R39 (spec/10_state.md): these are parameters of a run; no step writes them. -/

namespace Sys2Proof

/-- What ADD, MUL and ARB do when the exact result lies outside `int64` (R7, R122, decision D5). -/
inductive OverflowMode where
  /-- The result is reduced modulo 2^64 (the default). -/
  | wrap
  /-- The instruction raises `OVERFLOW`. -/
  | fault
  deriving DecidableEq, Repr

/-- The parameters R7 leaves to a model's argument. State carries them, so a statement about every state holds for every choice. -/
structure Params where
  /-- `MEM_CAPACITY`: addresses 0 .. memCapacity - 1 exist. -/
  memCapacity : Nat
  /-- `QUEUE_DEPTH`: capacity of every queue; `none` is `INF`. OPEN in R7. -/
  queueDepth : Option Nat
  /-- `OVERFLOW_MODE`. -/
  overflowMode : OverflowMode
  /-- `AMP_COUNT`: the number of cores in the Amplifier Ring. -/
  ampCount : Nat
  deriving DecidableEq, Repr

/-- The defaults of R7. DESIGN CHOICE (log 2): R7 gives `QUEUE_DEPTH` no default; `INF` is the default of spec/95_test_vectors.md section 0. -/
def Params.default : Params where
  memCapacity := 2 ^ 63
  queueDepth := none
  overflowMode := .wrap
  ampCount := 5

/-- The values R7 admits: `MEM_CAPACITY` is at most its default and leaves room for a start position,
`QUEUE_DEPTH` is at least 1, and a ring has at least one core. -/
def Params.valid (p : Params) : Bool :=
  decide (1 ≤ p.memCapacity) && decide (p.memCapacity ≤ 2 ^ 63) && decide (1 ≤ p.ampCount) &&
    (match p.queueDepth with
     | none => true
     | some d => decide (1 ≤ d))

/-- `DRIVE_VALUE`: the value injected into core 0's input after the phases (R7, spec/60_exceptions.md R193). -/
def Config.driveValue : Word := 0#64

/-- FREE VALUE (log 4): which ring core steps next is free (R195). Applied to the counter `State.tick`; the ring takes it modulo
the number of cores that may step, so that every such core can be the one chosen. -/
opaque Config.schedule : Nat → Nat

end Sys2Proof
end

