-- ==== Sys2Proof/Machine/State.lean ====
section
/-! DEFINITION. The state of the machine as plain data: one Interpreter core (spec/10_state.md R20), the Amplifier Ring (R38), the
parameters of the run and what the host keeps for reset (R39), and the reasons a step can stop. -/

namespace Sys2Proof.Machine

/-- `MEM`: the cells that do not hold 0, as (address, value) pairs; an unlisted address reads 0 (spec/20_memory.md R52, spec/10_state.md
R26). The unit is one 64-bit cell, not a byte (R50, R56; log 1). -/
abbrev Memory := List (Nat × Word)

/-- `STATUS` (R27). -/
inductive Status where
  /-- Code 0: the core may take a step if `RUN` = 1. -/
  | ready
  /-- Code 1: the core executed HALT; terminal. -/
  | halted
  /-- Code 2: the core raised a fault; terminal. -/
  | faulted
  deriving DecidableEq, Repr

/-- The values of `FAULT_CAUSE` (spec/60_exceptions.md R171). -/
inductive Cause where
  /-- Code 0: no fault. -/
  | none
  /-- Code 1: the fetched word is negative or its opcode is not in the table. -/
  | unknownOpcode
  /-- Code 2: a mode digit 3 .. 9 or a digit beyond the parameter count. -/
  | illegalMode
  /-- Code 3: an Immediate write slot. -/
  | immediateWrite
  /-- Code 4: a resolved address below 0. -/
  | negativeAddress
  /-- Code 5: an address at or beyond `MEM_CAPACITY`. -/
  | capacity
  /-- Code 6: a taken jump to a negative target. -/
  | jumpTargetNegative
  /-- Code 7: IN on an empty queue whose stream has ended. -/
  | inputEnd
  /-- Code 8: IN on a `Malformed` token. -/
  | inputFormat
  /-- Code 9: a result outside `int64` under `OVERFLOW_MODE` = FAULT. -/
  | overflow
  deriving DecidableEq, Repr

/-- A token of an input queue (R31). -/
inductive Token where
  /-- A value. -/
  | val (v : Word)
  /-- Text the host-side adapter could not convert. -/
  | malformed
  deriving DecidableEq, Repr

/-- `NET_STATUS` (R38, spec/60_exceptions.md R199). -/
inductive NetStatus where
  /-- Code 0. -/
  | idle
  /-- Code 1. -/
  | running
  /-- Code 2. -/
  | done
  /-- Code 3. -/
  | failed
  /-- Code 4. -/
  | deadlock
  /-- Code 5. -/
  | noResult
  deriving DecidableEq, Repr

/-- One core without its queues: the registers and memory of R20. -/
structure CoreRegs where
  /-- `MEM` (R26). -/
  mem : Memory
  /-- `MLEN` (R30). -/
  mlen : Nat
  /-- `PC` (R22). -/
  pc : Nat
  /-- `RB` (R24). -/
  rb : Word
  /-- `STATUS` (R27). -/
  status : Status
  /-- `RUN` (R28). -/
  run : Bool
  /-- `FAULT_CAUSE` (R29). -/
  faultCause : Cause
  /-- `FAULT_PC` (R29). -/
  faultPc : Nat
  /-- `FAULT_WORD` (R29). -/
  faultWord : Word
  /-- `FAULT_ADDR` (R29): a mathematical integer. -/
  faultAddr : Int
  deriving DecidableEq, Repr

/-- Core `i` of the ring and the channel it writes, `CH[i]`: the OUTQ of core `i` and the INQ of core `(i+1) mod N` (R38,
spec/60_exceptions.md R191). Ring channels hold only values (R38). -/
structure Node where
  core : CoreRegs
  chan : List Word
  deriving DecidableEq, Repr

/-- The whole machine. Queues list their oldest entry first. -/
structure State where
  /-- The parameters of R7; no step writes them (R39). -/
  params : Params
  /-- `P`: the last loaded program image, kept for reset (R39). -/
  image : List Word
  /-- `START_PC`: the last loaded start position (R7, R204). -/
  startPc : Nat
  /-- The registers and memory of the standalone core (R20). -/
  core : CoreRegs
  /-- `INQ` of the standalone core (R31). -/
  inq : List Token
  /-- `IN_EOS` of the standalone core (R32). -/
  inEos : Bool
  /-- `OUTQ` of the standalone core (R33). -/
  outq : List Word
  /-- The ring's cores and channels (R38). -/
  nodes : List Node
  /-- `NET_STATUS` (R38). -/
  netStatus : NetStatus
  /-- `NET_RESULT` (R38). -/
  netResult : Word
  /-- `NET_RESULT_VALID` (R38). -/
  netResultValid : Bool
  /-- `NET_FAIL_CORE` (R38). -/
  netFailCore : Nat
  /-- The model's own counter of ring steps: it indexes the free schedule (log 4). -/
  tick : Nat
  deriving DecidableEq, Repr

/-- The reasons a step could stop the machine outside its state. There is none: every fault of this hardware is a state the spec
describes, `STATUS` = FAULTED with its fault record (spec/60_exceptions.md R170, R176), so a step that raises one answers the next
state (log 5), and a core with no enabled step keeps its state (R107, R112; log 6). -/
inductive Fault where
  deriving DecidableEq, Repr

/-- The reasons a step could refuse. -/
inductive Refusal where
  /-- Raised by no one: kept for an instruction that has no meaning yet, and every instruction has one. Safe: a refused instruction
  proves nothing. -/
  | notModelled (mnemonic : String)
  deriving DecidableEq, Repr

/-- A core after reset with an empty image: the values of R36 and R220 for L = 0, `START_PC` = 0. -/
def CoreRegs.blank : CoreRegs where
  mem := []
  mlen := 0
  pc := 0
  rb := 0#64
  status := .ready
  run := false
  faultCause := .none
  faultPc := 0
  faultWord := 0#64
  faultAddr := 0

/-- The machine right after reset (R36, R38, R220): the parameters at their defaults (log 2) and no program loaded (log 9), so the image
is empty, every cell reads 0 and `MLEN` is 0 (R222); the ring is idle, its cores reset and its channels empty. -/
def State.reset : State where
  params := Params.default
  image := []
  startPc := 0
  core := CoreRegs.blank
  inq := []
  inEos := false
  outq := []
  nodes := List.replicate 5 ⟨CoreRegs.blank, []⟩
  netStatus := .idle
  netResult := 0#64
  netResultValid := false
  netFailCore := 0
  tick := 0

end Sys2Proof.Machine
end

