-- ==== Sys2Proof/Machine/Ops.lean ====
section
/-! DEFINITION. The named operations over memory, registers and queues, and taking a fault as one shared operation. A fault of this
hardware has no handler and no return (spec/60_exceptions.md R176, R177), so there is no return operation: only reset leaves it. -/

namespace Sys2Proof.Machine

/-! Memory: the primitives of spec/20_memory.md R52, R54. -/

/-- `MEM[a]`; an address no write has reached reads 0 (R52). -/
def Memory.read (m : Memory) (a : Nat) : Word :=
  match m with
  | [] => 0#64
  | (k, v) :: rest => if k = a then v else Memory.read rest a

/-- The memory without a listed cell at `a`, so that `a` reads 0. -/
def Memory.erase (m : Memory) (a : Nat) : Memory :=
  match m with
  | [] => []
  | (k, x) :: rest => if k = a then Memory.erase rest a else (k, x) :: Memory.erase rest a

/-- The cell `a` listed with value `v`, in front of the first higher address. -/
def Memory.insert (m : Memory) (a : Nat) (v : Word) : Memory :=
  match m with
  | [] => [(a, v)]
  | (k, x) :: rest => if a < k then (a, v) :: (k, x) :: rest else (k, x) :: Memory.insert rest a v

/-- `MEM[a] <- v` (R54), keeping the canonical form: addresses strictly rising, no cell listed that holds 0. -/
def Memory.write (m : Memory) (a : Nat) (v : Word) : Memory :=
  if v = 0#64 then Memory.erase m a else Memory.insert (Memory.erase m a) a v

/-- Every listed address is at least `lo`, addresses rise strictly, and no listed cell holds 0. -/
def Memory.wfFrom (lo : Nat) (m : Memory) : Bool :=
  match m with
  | [] => true
  | (a, v) :: rest => decide (lo ≤ a) && decide (v ≠ 0#64) && Memory.wfFrom (a + 1) rest

/-- The canonical form. -/
def Memory.wf (m : Memory) : Bool := Memory.wfFrom 0 m

/-- The image `P` laid from address `base` on (R59): only the cells that do not hold 0 are listed. -/
def Memory.ofImage (base : Nat) (cells : List Word) : Memory :=
  match cells with
  | [] => []
  | v :: rest => if v = 0#64 then Memory.ofImage (base + 1) rest else (base, v) :: Memory.ofImage (base + 1) rest

/-- The memory image of a core, `MEM[0], .., MEM[MLEN-1]` (R67). -/
def CoreRegs.image (c : CoreRegs) : List Word := (List.range c.mlen).map (Memory.read c.mem)

/-- `MLEN <- max(MLEN, a + 1)` for every touched address (R53, spec/40_cycle.md R110). -/
def extend (mlen : Nat) (touched : List Nat) : Nat := touched.foldr (fun a m => max m (a + 1)) mlen

/-! Raising and taking a fault. -/

/-- What `raise Fault(cause, addr)` carries (spec/00_scope.md R13). -/
structure Trap where
  cause : Cause
  addr : Int
  deriving DecidableEq, Repr

/-- The cause code of R171. -/
def Cause.code (c : Cause) : Nat :=
  match c with
  | .none => 0
  | .unknownOpcode => 1
  | .illegalMode => 2
  | .immediateWrite => 3
  | .negativeAddress => 4
  | .capacity => 5
  | .jumpTargetNegative => 6
  | .inputEnd => 7
  | .inputFormat => 8
  | .overflow => 9

/-- The status code of spec/10_state.md R27. -/
def Status.code (s : Status) : Nat :=
  match s with
  | .ready => 0
  | .halted => 1
  | .faulted => 2

/-- The network status code of spec/10_state.md R38. -/
def NetStatus.code (s : NetStatus) : Nat :=
  match s with
  | .idle => 0
  | .running => 1
  | .done => 2
  | .failed => 3
  | .deadlock => 4
  | .noResult => 5

/-- The causes whose fault records an address in `FAULT_ADDR` (R170). -/
def Cause.recordsAddr (c : Cause) : Bool :=
  match c with
  | .negativeAddress => true
  | .capacity => true
  | .jumpTargetNegative => true
  | .none => false
  | .unknownOpcode => false
  | .illegalMode => false
  | .immediateWrite => false
  | .inputEnd => false
  | .inputFormat => false
  | .overflow => false

/-- The decode causes of R171. -/
def causeOfDecode (e : DecodeError) : Cause :=
  match e with
  | .unknownOpcode => .unknownOpcode
  | .illegalMode => .illegalMode
  | .immediateWrite => .immediateWrite

/-- TAKING A FAULT: `record_fault(cause, x)` of spec/60_exceptions.md R170. `STATUS` and the fault record are written and nothing else
(R111). `FAULT_WORD` is the word at `PC` if the fetch succeeded, which it did exactly when `PC` passes its address check (R101);
nothing has been committed since, so that word is still in memory (DEDUCED, log 8). -/
def CoreRegs.recordFault (c : CoreRegs) (p : Params) (e : Trap) : CoreRegs :=
  { c with
    status := .faulted
    faultCause := e.cause
    faultPc := c.pc
    faultWord := if c.pc < p.memCapacity then Memory.read c.mem c.pc else 0#64
    faultAddr := if e.cause.recordsAddr then e.addr else 0 }

/-- The state after the executing core takes a fault. -/
def State.recordFault (s : State) (e : Trap) : State := { s with core := s.core.recordFault s.params e }

/-! Queues (spec/00_scope.md R12). -/

/-- `len(Q) = QUEUE_DEPTH`; never so for an unbounded queue (spec/42_io.md R131). -/
def queueFull (p : Params) (len : Nat) : Bool :=
  match p.queueDepth with
  | none => false
  | some d => decide (len = d)

/-- `len(Q) < QUEUE_DEPTH`: the host's precondition for a push (spec/60_exceptions.md R204). -/
def queueRoom (p : Params) (len : Nat) : Bool :=
  match p.queueDepth with
  | none => true
  | some d => decide (len < d)

/-- `Push(Q, v)`: append the newest entry. -/
def push {α : Type} (q : List α) (v : α) : List α := q ++ [v]

/-! Committing a step (spec/40_cycle.md R110). -/

/-- The commit all instructions share: `MLEN` grows over the instruction's own cells and over every address its operands touched, and
`PC` takes its next value. -/
def State.commit (s : State) (len : Nat) (touched : List Nat) (next : Nat) : State :=
  { s with core := { s.core with
      mlen := extend s.core.mlen ((List.range len).map (s.core.pc + ·) ++ touched)
      pc := next } }

/-- `MEM[t] <- v`, the commit's write. -/
def State.store (s : State) (t : Nat) (v : Word) : State :=
  { s with core := { s.core with mem := Memory.write s.core.mem t v } }

/-- What one execution ends in (spec/40_cycle.md R100): the whole instruction commits, or it faults and only the fault is recorded, or it
stalls, which is a commit of nothing (R107, R115: "on stall: no change"). -/
def finish (s : State) (r : Except Trap State) : Host.Outcome State Fault Refusal :=
  match r with
  | .ok t => .next t
  | .error e => .next (s.recordFault e)

/-! Reset (spec/70_reset_and_hazards.md R220). -/

/-- Reset of a core with image `P` and start position `start`: every value of spec/10_state.md R36. -/
def CoreRegs.resetWith (P : List Word) (start : Nat) : CoreRegs :=
  { CoreRegs.blank with mem := Memory.ofImage 0 P, mlen := P.length, pc := start }

/-- Reset of the standalone core with the last loaded image: nothing of the previous run is kept (R220, decision D26). -/
def State.resetCore (s : State) : State :=
  { s with core := CoreRegs.resetWith s.image s.startPc, inq := [], inEos := false, outq := [] }

end Sys2Proof.Machine
end

