-- ==== Sys2Proof/Machine/Flags.lean ====
section
/-! DEFINITION. What stands in the place of flag computations. The core has no flags (spec/10_state.md R25): overflow is a condition of
the exact result (spec/41_arithmetic.md R122) and a comparison's result is a cell holding 1 or 0 (spec/44_compare.md). -/

namespace Sys2Proof.Machine

/-- `int64`: the integers -2^63 .. 2^63-1 (spec/00_scope.md R8). -/
def fitsWord (x : Int) : Bool := decide (-(2 ^ 63) ≤ x) && decide (x < 2 ^ 63)

/-- `wrap64(x)`: the unique `int64` congruent to `x` modulo 2^64 (R8). -/
def wrap64 (x : Int) : Word := BitVec.ofInt 64 x

/-- The result of ADD, MUL and ARB from its exact value (R122, R160): outside `int64` it is wrapped, or raises `OVERFLOW`, as
`OVERFLOW_MODE` says. -/
def narrow (p : Params) (x : Int) : Except Trap Word :=
  if fitsWord x then .ok (wrap64 x)
  else
    match p.overflowMode with
    | .wrap => .ok (wrap64 x)
    | .fault => .error ⟨.overflow, 0⟩

/-- 1 for true, 0 for false (R150, R151). -/
def boolWord (b : Bool) : Word := if b then 1#64 else 0#64

end Sys2Proof.Machine
end

