-- ==== Sys2Proof/Machine/Operands.lean ====
section
/-! DEFINITION. Operand resolution: every addressing mode of spec/30_encoding.md R80, R81, and the address check of
spec/20_memory.md R51. -/

namespace Sys2Proof.Machine

/-- `check_addr(a)` (R51): the address as an index of memory, or the fault. A negative address is refused before one beyond the
capacity. -/
def checkAddr (p : Params) (a : Int) : Except Trap Nat :=
  if a < 0 then .error ⟨.negativeAddress, a⟩
  else if (p.memCapacity : Int) ≤ a then .error ⟨.capacity, a⟩
  else .ok a.toNat

/-- `base(m) + raw` (spec/40_cycle.md R115): an exact integer sum, never wrapped (R51, decision D6). -/
def effAddr (c : CoreRegs) (p : Param) : Int :=
  match p.mode with
  | .position => p.raw.toInt
  | .immediate => p.raw.toInt
  | .relative => c.rb.toInt + p.raw.toInt

/-- A resolved read operand: its value and the addresses resolving it touched. -/
structure Operand where
  value : Word
  touched : List Nat
  deriving DecidableEq, Repr

/-- `MemRead` of the operand's address, after its check (R80). -/
def loadOperand (s : State) (p : Param) : Except Trap Operand :=
  match checkAddr s.params (effAddr s.core p) with
  | .error e => .error e
  | .ok a => .ok ⟨Memory.read s.core.mem a, [a]⟩

/-- `resolve_read` (R80). -/
def readOperand (s : State) (p : Param) : Except Trap Operand :=
  match p.mode with
  | .position => loadOperand s p
  | .immediate => .ok ⟨p.raw, []⟩
  | .relative => loadOperand s p

/-- `resolve_write` (R81): always an address, never a value. The Immediate form is never decoded (R79 faults first); executed as a term,
it raises the same fault (log 7). -/
def writeTarget (s : State) (p : Param) : Except Trap Nat :=
  match p.mode with
  | .position => checkAddr s.params (effAddr s.core p)
  | .immediate => .error ⟨.immediateWrite, 0⟩
  | .relative => checkAddr s.params (effAddr s.core p)

/-- Two read operands, in slot order (spec/40_cycle.md R104). -/
def readTwo (s : State) (a b : Param) : Except Trap (Operand × Operand) :=
  match readOperand s a with
  | .error e => .error e
  | .ok x =>
    match readOperand s b with
    | .error e => .error e
    | .ok y => .ok (x, y)

end Sys2Proof.Machine
end

