-- ==== Sys2Proof/Machine/Arithmetic.lean ====
section
/-! DEFINITION. The instructions of format F3, two read slots and a write slot: ADD, MUL (spec/41_arithmetic.md) and LT, EQ
(spec/44_compare.md). -/

namespace Sys2Proof.Machine

/-- The shape F3 shares: resolve slots 1, 2, 3 in order (spec/40_cycle.md R104), compute, then commit the write and advance by 4
(R108). All reads precede the write (R110). -/
def binaryToTarget (f : Word → Word → Except Trap Word) (a b t : Param) (s : State) : Host.Outcome State Fault Refusal :=
  finish s
    (match readTwo s a b with
     | .error e => .error e
     | .ok (x, y) =>
       match writeTarget s t with
       | .error e => .error e
       | .ok t =>
         match f x.value y.value with
         | .error e => .error e
         | .ok v => .ok ((s.commit 4 (x.touched ++ y.touched ++ [t]) (s.core.pc + 4)).store t v))

/-- ADD: `mem[t] = a + b` (R120, R122). -/
def execAdd (a b t : Param) (s : State) : Host.Outcome State Fault Refusal :=
  binaryToTarget (fun x y => narrow s.params (x.toInt + y.toInt)) a b t s

/-- MUL: `mem[t] = a * b` (R121, R122). -/
def execMul (a b t : Param) (s : State) : Host.Outcome State Fault Refusal :=
  binaryToTarget (fun x y => narrow s.params (x.toInt * y.toInt)) a b t s

/-- LT: `mem[t] = 1 if a < b else 0`, a signed comparison (R150). -/
def execLt (a b t : Param) (s : State) : Host.Outcome State Fault Refusal :=
  binaryToTarget (fun x y => .ok (boolWord (decide (x.toInt < y.toInt)))) a b t s

/-- EQ: `mem[t] = 1 if a == b else 0` (R151). -/
def execEq (a b t : Param) (s : State) : Host.Outcome State Fault Refusal :=
  binaryToTarget (fun x y => .ok (boolWord (decide (x.toInt = y.toInt)))) a b t s

end Sys2Proof.Machine
end

