-- ==== Sys2Proof/Machine/BaseHalt.lean ====
section
/-! DEFINITION. ARB and HALT (spec/45_base_halt.md). -/

namespace Sys2Proof.Machine

/-- ARB (R160): `RB <- RB + a`, narrowed as `OVERFLOW_MODE` says; the operand is read with the old `RB`. -/
def execArb (a : Param) (s : State) : Host.Outcome State Fault Refusal :=
  finish s
    (match readOperand s a with
     | .error e => .error e
     | .ok x =>
       match narrow s.params (s.core.rb.toInt + x.value.toInt) with
       | .error e => .error e
       | .ok r =>
         let t := s.commit 2 x.touched (s.core.pc + 2)
         .ok { t with core := { t.core with rb := r } })

/-- HALT (R161): the next `PC` is `PC + 1` (R108) and `STATUS` becomes HALTED. -/
def execHalt (s : State) : Host.Outcome State Fault Refusal :=
  let t := s.commit 1 [] (s.core.pc + 1)
  finish s (.ok { t with core := { t.core with status := .halted } })

end Sys2Proof.Machine
end

