-- ==== Sys2Proof/Machine/InputOutput.lean ====
section
/-! DEFINITION. IN and OUT (spec/42_io.md). -/

namespace Sys2Proof.Machine

/-- IN (R130): the target is resolved first, then the queue is tested. An empty open queue stalls; an empty ended one raises
`INPUT_END`; a `Malformed` head raises `INPUT_FORMAT`; neither fault pops the token. -/
def execIn (t : Param) (s : State) : Host.Outcome State Fault Refusal :=
  finish s
    (match writeTarget s t with
     | .error e => .error e
     | .ok t =>
       match s.inq with
       | [] => if s.inEos then .error ⟨.inputEnd, 0⟩ else .ok s
       | .malformed :: _ => .error ⟨.inputFormat, 0⟩
       | .val v :: rest => .ok { (s.commit 2 [t] (s.core.pc + 2)).store t v with inq := rest })

/-- OUT (R131): the operand is resolved first; a full queue stalls, whether or not its consumer has stopped (R133). -/
def execOut (a : Param) (s : State) : Host.Outcome State Fault Refusal :=
  finish s
    (match readOperand s a with
     | .error e => .error e
     | .ok x =>
       if queueFull s.params s.outq.length then .ok s
       else .ok { s.commit 2 x.touched (s.core.pc + 2) with outq := push s.outq x.value })

end Sys2Proof.Machine
end

