-- ==== Sys2Proof/Machine/Jumps.lean ====
section
/-! DEFINITION. The conditional jumps JT and JF (spec/43_jumps.md). Targets are absolute (R109, R142). -/

namespace Sys2Proof.Machine

/-- The shape the jumps share: both operands are resolved whether or not the jump is taken; a taken jump to `b < 0` raises
`JUMP_TARGET_NEGATIVE`, a taken jump sets `PC` to `b`, and an untaken one ignores `b` and advances by 3 (R140, R141). -/
def jumpIf (taken : Word → Bool) (a b : Param) (s : State) : Host.Outcome State Fault Refusal :=
  finish s
    (match readTwo s a b with
     | .error e => .error e
     | .ok (x, y) =>
       if taken x.value then
         if y.value.toInt < 0 then .error ⟨.jumpTargetNegative, y.value.toInt⟩
         else .ok (s.commit 3 (x.touched ++ y.touched) y.value.toNat)
       else .ok (s.commit 3 (x.touched ++ y.touched) (s.core.pc + 3)))

/-- JT: "if `a != 0`, set program counter to `b`; otherwise fall through" (R140). -/
def execJt (a b : Param) (s : State) : Host.Outcome State Fault Refusal := jumpIf (fun x => decide (x ≠ 0#64)) a b s

/-- JF: "if `a == 0`, set program counter to `b`; otherwise fall through" (R141). -/
def execJf (a b : Param) (s : State) : Host.Outcome State Fault Refusal := jumpIf (fun x => decide (x = 0#64)) a b s

end Sys2Proof.Machine
end

