-- ==== Sys2Proof/Machine/Dispatch.lean ====
section
/-! DEFINITION. One arm per constructor of `Instr`: the meaning of each instruction, executed by the core whose registers, memory and
queues stand in the state's `core`, `inq`, `inEos` and `outq`. -/

namespace Sys2Proof.Machine

def exec (i : Instr) (s : State) : Host.Outcome State Fault Refusal :=
  match i with
  | .add a b t => Sys2Proof.Machine.execAdd a b t s
  | .mul a b t => Sys2Proof.Machine.execMul a b t s
  | .inp t => Sys2Proof.Machine.execIn t s
  | .out a => Sys2Proof.Machine.execOut a s
  | .jt a b => Sys2Proof.Machine.execJt a b s
  | .jf a b => Sys2Proof.Machine.execJf a b s
  | .lt a b t => Sys2Proof.Machine.execLt a b t s
  | .eq a b t => Sys2Proof.Machine.execEq a b t s
  | .arb a => Sys2Proof.Machine.execArb a s
  | .halt => Sys2Proof.Machine.execHalt s

end Sys2Proof.Machine
end

