-- ==== Sys2Proof/Machine/Cycle.lean ====
section
/-! DEFINITION. The execution cycle of one core (spec/40_cycle.md R100-R115): when a step is enabled, fetch and decode with their
checks in the order of R106 (items 1 to 6; items 7 and 8 are the meanings'), and the two derived wait signals (spec/10_state.md R34). -/

namespace Sys2Proof.Machine

/-- "A step is enabled only when `STATUS = READY` and `RUN = 1`" (R100). -/
def CoreRegs.enabled (c : CoreRegs) : Bool := decide (c.status = .ready) && c.run

/-- The address checks of parameter cells `PC + k`, `PC + k + 1`, .. (`n` of them) in increasing order (R103). -/
def checkCells (p : Params) (pc k : Nat) : Nat → Except Trap Unit
  | 0 => .ok ()
  | n + 1 =>
    match checkAddr p ((pc + k : Nat) : Int) with
    | .error e => .error e
    | .ok _ => checkCells p pc (k + 1) n

/-- Fetch and decode (R101, R102, R103): the instruction at `PC` with the raw values of its parameter cells, or the first fault of
R106 items 1 to 6. Which cells are parameters is known only after decoding; `decode` never fails because of a raw value, so reading
them first changes nothing (log 20). -/
def fetch (s : State) : Except Trap Instr :=
  match checkAddr s.params (s.core.pc : Int) with
  | .error e => .error e
  | .ok pc =>
    match decode (Memory.read s.core.mem pc) (fun k => Memory.read s.core.mem (pc + k)) with
    | .error e => .error ⟨causeOfDecode e, 0⟩
    | .ok i =>
      match checkCells s.params pc 1 i.params.length with
      | .error e => .error e
      | .ok _ => .ok i

/-- One step of the executing core (R115). With no enabled step the state stays as it is (R107, R112; log 6). -/
def stepCore (s : State) : Host.Outcome State Fault Refusal :=
  if s.core.enabled then
    match fetch s with
    | .error e => .next (s.recordFault e)
    | .ok i => exec i s
  else .next s

/-- `WAIT_IN` (R34): the core is ready and running, and the instruction at `PC` is an IN that passes every check before its queue
test and finds its queue empty and its stream open. -/
def State.waitIn (s : State) : Bool :=
  s.core.enabled &&
    (match fetch s with
     | .ok (.inp t) =>
       (match writeTarget s t with
        | .ok _ => s.inq.isEmpty && !s.inEos
        | .error _ => false)
     | _ => false)

/-- `WAIT_OUT` (R34): the core is ready and running, and the instruction at `PC` is an OUT that passes every check before its queue
test and finds its queue full. -/
def State.waitOut (s : State) : Bool :=
  s.core.enabled &&
    (match fetch s with
     | .ok (.out a) =>
       (match readOperand s a with
        | .ok _ => queueFull s.params s.outq.length
        | .error _ => false)
     | _ => false)

/-- The core has an enabled step that is not a stall (spec/60_exceptions.md R195, R199). -/
def State.canStep (s : State) : Bool := s.core.enabled && !s.waitIn && !s.waitOut

end Sys2Proof.Machine
end

