-- ==== Sys2Proof/Machine/Ring.lean ====
section
/-! DEFINITION. The Amplifier Ring (spec/60_exceptions.md R190-R203, spec/70_reset_and_hazards.md R220, R224). A ring core takes the
same step as a standalone one: `ringView` puts its registers and channels where a core's stand, `stepCore` steps it, and
`ringAbsorb` puts the result back. -/

namespace Sys2Proof.Machine

/-- The index of the core upstream of core `i`, `(i-1) mod N` (R191). -/
def upstream (n i : Nat) : Nat := (i + n - 1) % n

/-- A node that stands for none: read only for an index outside the ring, which no ring step uses. -/
def Node.blank : Node := ⟨CoreRegs.blank, []⟩

/-- Core `i` of the ring with its channel `CH[i]`. -/
def State.node (s : State) (i : Nat) : Node := s.nodes.getD i Node.blank

/-- `STATUS` is HALTED or FAULTED. -/
def CoreRegs.terminal (c : CoreRegs) : Bool := decide (c.status = .halted) || decide (c.status = .faulted)

/-- Ring core `i` as an executing core: its INQ is its upstream channel, its OUTQ its own channel (R191), and its `IN_EOS` is 1 exactly
when the upstream core is HALTED or FAULTED (R197). -/
def State.ringView (s : State) (i : Nat) : State :=
  { s with
    core := (s.node i).core
    inq := (s.node (upstream s.nodes.length i)).chan.map .val
    inEos := (s.node (upstream s.nodes.length i)).core.terminal
    outq := (s.node i).chan }

/-- Ring core `i` has an enabled, non-stalled step (R195). -/
def State.ringCanStep (s : State) (i : Nat) : Bool := (s.ringView i).canStep

/-- The channels of a ring after its core `i` stepped from its view `v` to `v'`: a popped token leaves the upstream channel, pushed values
join its own. One step does at most one of the two, so a ring of one core, whose two channels are the same, is no special case. -/
def Node.afterStep (nodes : List Node) (i : Nat) (v v' : State) : List Node :=
  let popped := v.inq.length - v'.inq.length
  let pushed := v'.outq.drop v.outq.length
  let nodes := nodes.modify (upstream nodes.length i) (fun n => { n with chan := n.chan.drop popped })
  nodes.modify i (fun n => ⟨v'.core, n.chan ++ pushed⟩)

/-- Put the stepped core back, and record a value that core N-1 output as the network's result (R198). -/
def State.ringAbsorb (s : State) (i : Nat) (v' : State) : State :=
  let v := s.ringView i
  let s := { s with nodes := Node.afterStep s.nodes i v v' }
  if i + 1 = s.nodes.length then
    match v'.outq.drop v.outq.length with
    | [] => s
    | r :: _ => { s with netResult := r, netResultValid := true }
  else s

/-- `RUN <- 0` in every core but core `j` (R200). -/
def abortOthers (j : Nat) (nodes : List Node) : List Node :=
  nodes.mapIdx (fun i n => if i = j then n else { n with core := { n.core with run := false } })

/-- `NET_STATUS` at a ring state of a running network, checked in the order of R199: a faulted core fails the network and stops every
other core (R200); a network of halted cores is done, or has no result; a network in which no core can step and some core is ready is
deadlocked (R201); any other goes on running. -/
def State.settle (s : State) : State :=
  match s.nodes.findIdx? (fun n => decide (n.core.status = .faulted)) with
  | some j => { s with netStatus := .failed, netFailCore := j, nodes := abortOthers j s.nodes }
  | none =>
    if s.nodes.all (fun n => decide (n.core.status = .halted)) then
      if s.netResultValid then { s with netStatus := .done } else { s with netStatus := .noResult }
    else if (List.range s.nodes.length).any s.ringCanStep then s
    else { s with netStatus := .deadlock }

/-- A ring step by core `i` (R195), and the network status after it (R199). A core that may not step takes none. -/
def ringStepAt (i : Nat) (s : State) : Host.Outcome State Fault Refusal :=
  if decide (s.netStatus = .running) && decide (i < s.nodes.length) && s.ringCanStep i then
    match stepCore (s.ringView i) with
    | .next v' => .next (s.ringAbsorb i v').settle
    | .fault r => .fault r
    | .refused r => .refused r
  else .next s

/-- The cores that may be chosen for the next ring step (R195). -/
def State.ringReady (s : State) : List Nat := (List.range s.nodes.length).filter s.ringCanStep

/-- The core the choice `h` picks: any core that may step can be the one. -/
def State.ringPick (s : State) (h : Nat) : Nat := s.ringReady.getD (h % s.ringReady.length) 0

/-- A ring step with the free choice of R195: `Config.schedule` at the counter `tick` (log 4). -/
def ringStep (s : State) : Host.Outcome State Fault Refusal :=
  match ringStepAt (s.ringPick (Config.schedule s.tick)) s with
  | .next t => .next { t with tick := s.tick + 1 }
  | .fault r => .fault r
  | .refused r => .refused r

/-! Construction and boot (R190-R194, R224), each step of R224 by itself. -/

/-- R224 (1): every core is reset with its own copy of `P`, every channel emptied, the network registers cleared (R190, R220). -/
def State.ringReset (s : State) (P : List Word) (start : Nat) : State :=
  { s with
    nodes := List.replicate s.params.ampCount ⟨CoreRegs.resetWith P start, []⟩
    netStatus := .idle
    netResult := 0#64
    netResultValid := false
    netFailCore := 0 }

/-- `Push(CH[j], Val(v))`. -/
def State.ringPush (s : State) (j : Nat) (v : Word) : State :=
  { s with nodes := s.nodes.modify j (fun n => { n with chan := push n.chan v }) }

/-- R224 (2): for `i` = `i0`, `i0 + 1`, .., push `PHASES[i]` into `CH[(i-1) mod N]` (R192). -/
def State.ringPhases (s : State) (i0 : Nat) (phases : List Word) : State :=
  match phases with
  | [] => s
  | v :: rest => State.ringPhases (s.ringPush (upstream s.nodes.length i0) v) (i0 + 1) rest

/-- R224 (3): push the driving value into `CH[N-1]` (R193). -/
def State.ringDrive (s : State) : State := s.ringPush (s.nodes.length - 1) Config.driveValue

/-- R224 (4): set every core's `RUN` and start the network (R194); a network that meets a condition of R199 at once settles at once
(DEDUCED, log 12). -/
def State.ringStart (s : State) : State :=
  State.settle
    { s with
      nodes := s.nodes.map (fun n => { n with core := { n.core with run := true } })
      netStatus := .running }

/-- The boot of a ring, R224 (1) to (4) in order. -/
def State.ringBoot (s : State) (P : List Word) (start : Nat) (phases : List Word) : State :=
  ((((s.ringReset P start).ringPhases 0 phases).ringDrive).ringStart)

end Sys2Proof.Machine
end

