-- ==== Sys2Proof/Machine/Step.lean ====
section
/-! DEFINITION. One step of the machine: of the ring while the network runs, of the standalone core otherwise (log 3). -/

namespace Sys2Proof.Machine

/-- One step. While `NET_STATUS` = RUNNING it is a ring step (spec/60_exceptions.md R195), otherwise the standalone core's step
(spec/40_cycle.md R115). -/
def step (s : State) : Host.Outcome State Fault Refusal :=
  match s.netStatus with
  | .running => ringStep s
  | .idle => stepCore s
  | .done => stepCore s
  | .failed => stepCore s
  | .deadlock => stepCore s
  | .noResult => stepCore s

/-- The instruction whose bits are `w` (`nbits` of them) placed in the cells at the standalone core's `PC`, the core ready and started
and no network running, so that the next step fetches and runs it. `MLEN` covers the placed cells, as it does after a LOAD (R36; log 9). -/
def State.withFetchWord (s : State) (nbits w : Nat) : State :=
  let pc := s.core.pc
  let mem := Memory.write s.core.mem pc (tableCell nbits w 0)
  let mem := Memory.write mem (pc + 1) (tableCell nbits w 1)
  let mem := Memory.write mem (pc + 2) (tableCell nbits w 2)
  let mem := Memory.write mem (pc + 3) (tableCell nbits w 3)
  { s with
    core := { s.core with mem := mem, mlen := max s.core.mlen (pc + 4), status := .ready, run := true }
    netStatus := if s.netStatus = .running then .idle else s.netStatus }

end Sys2Proof.Machine
end

