-- ==== Sys2Proof/Machine/HostOps.lean ====
section
/-! DEFINITION. What the host does to the machine (spec/60_exceptions.md R204, R207, R208; spec/70_reset_and_hazards.md R223, R224): each
operation with its precondition and its effect. Operations land between steps. "A refused operation changes nothing" (R204). -/

namespace Sys2Proof.Machine

/-- The operations on a standalone core (R204). A program's entries and its start position are integers, since LOAD refuses those out
of range. -/
inductive HostOp where
  | load (program : List Int) (start : Int)
  | start
  | pushIn (v : Word)
  | pushMalformed
  | closeIn
  | popOut
  | readStatus
  | dumpMem
  | reset
  deriving DecidableEq, Repr

/-- What READ_STATUS returns (R204). -/
structure StatusReport where
  status : Status
  run : Bool
  faultCause : Cause
  faultPc : Nat
  faultWord : Word
  faultAddr : Int
  pc : Nat
  rb : Word
  mlen : Nat
  waitIn : Bool
  waitOut : Bool
  inqLen : Nat
  outqLen : Nat
  deriving DecidableEq, Repr

/-- What an accepted operation returns. -/
inductive HostReply where
  | ack
  | value (v : Word)
  | status (r : StatusReport)
  | memory (cells : List Word)
  deriving DecidableEq, Repr

/-- The fields READ_STATUS returns. -/
def State.report (s : State) : StatusReport where
  status := s.core.status
  run := s.core.run
  faultCause := s.core.faultCause
  faultPc := s.core.faultPc
  faultWord := s.core.faultWord
  faultAddr := s.core.faultAddr
  pc := s.core.pc
  rb := s.core.rb
  mlen := s.core.mlen
  waitIn := s.waitIn
  waitOut := s.waitOut
  inqLen := s.inq.length
  outqLen := s.outq.length

/-- LOAD's conditions on a program and a start position (R204, decision D25). -/
def loadable (p : Params) (program : List Int) (start : Int) : Bool :=
  decide (0 ≤ start) && decide (start < p.memCapacity) && decide (program.length ≤ p.memCapacity) && program.all fitsWord

/-- LOAD's effect: the program and start position are kept, and the core is reset with them (R204, R220). -/
def State.load (s : State) (program : List Int) (start : Int) : State :=
  State.resetCore { s with image := program.map wrap64, startPc := start.toNat }

/-- A host operation on the standalone core: the state after it and its reply, or `none` where it is refused (R204). -/
def hostOp (op : HostOp) (s : State) : Option (State × HostReply) :=
  match op with
  | .load program start =>
    if !s.core.enabled && loadable s.params program start then some (s.load program start, .ack) else none
  | .start =>
    if decide (s.core.status = .ready) && !s.core.run then
      some ({ s with core := { s.core with run := true } }, .ack)
    else none
  | .pushIn v =>
    if !s.inEos && queueRoom s.params s.inq.length then some ({ s with inq := push s.inq (.val v) }, .ack) else none
  | .pushMalformed =>
    if !s.inEos && queueRoom s.params s.inq.length then some ({ s with inq := push s.inq .malformed }, .ack) else none
  | .closeIn => some ({ s with inEos := true }, .ack)
  | .popOut =>
    match s.outq with
    | [] => none
    | v :: rest => some ({ s with outq := rest }, .value v)
  | .readStatus => some (s, .status s.report)
  | .dumpMem => if !s.core.enabled then some (s, .memory s.core.image) else none
  | .reset => some (s.resetCore, .ack)

/-! The ring's host side. -/

/-- What a ring can be built from (R190, R191, R192; log 13): N at least 1, one phase per core, room for core 0's phase and driving
value, and a program and start position LOAD would accept. A running network is not rebuilt: a ring is built for one run. -/
def State.bootable (s : State) (program : List Int) (start : Int) (phases : List Word) : Bool :=
  decide (s.netStatus ≠ .running) && decide (1 ≤ s.params.ampCount) && decide (phases.length = s.params.ampCount) &&
    queueRoom s.params 1 && loadable s.params program start

/-- Build and start a ring (R190-R194, R224); `none` where it is refused. -/
def bootRing (program : List Int) (start : Int) (phases : List Word) (s : State) : Option State :=
  if s.bootable program start phases then some (s.ringBoot (program.map wrap64) start.toNat phases) else none

/-- What the host reads of a ring (R204): the registers `NET_STATUS`, `NET_RESULT` and `NET_FAIL_CORE`, in every status, and each core's
status and fault record. Beside them `result` is the network's reported result, which R198 to R201 give it only once it is `DONE`
(DEDUCED, log 19). -/
structure NetReport where
  status : NetStatus
  netResult : Word
  failCore : Nat
  result : Option Word
  cores : List (Status × Cause × Nat × Word × Int)
  deriving DecidableEq, Repr

/-- The ring's read-out. -/
def State.netReport (s : State) : NetReport where
  status := s.netStatus
  netResult := s.netResult
  failCore := s.netFailCore
  result := if s.netStatus = .done then some s.netResult else none
  cores := s.nodes.map (fun n => (n.core.status, n.core.faultCause, n.core.faultPc, n.core.faultWord, n.core.faultAddr))

/-! Everything that can happen to the machine. -/

/-- One event: a step of the machine with its free choice, a ring step by a named core, a host operation, or the building of a ring. -/
inductive Event where
  | step
  | ringCore (i : Nat)
  | host (op : HostOp)
  | boot (program : List Int) (start : Int) (phases : List Word)
  deriving DecidableEq, Repr

/-- The machine after an event. A refused operation changes nothing (R204). -/
def State.after (s : State) (e : Event) : Host.Outcome State Fault Refusal :=
  match e with
  | .step => step s
  | .ringCore i => ringStepAt i s
  | .host op =>
    match hostOp op s with
    | none => .next s
    | some (t, _) => .next t
  | .boot program start phases =>
    match bootRing program start phases s with
    | none => .next s
    | some t => .next t

/-- A standalone run has ended when `STATUS` is HALTED or FAULTED (R208). -/
def State.coreEnded (s : State) : Bool := s.core.terminal

/-- A ring run has ended when `NET_STATUS` is DONE, FAILED, DEADLOCK or NO_RESULT (R208). -/
def State.netEnded (s : State) : Bool :=
  match s.netStatus with
  | .idle => false
  | .running => false
  | .done => true
  | .failed => true
  | .deadlock => true
  | .noResult => true

end Sys2Proof.Machine
end

