-- ==== Sys2Proof/Machine/Text.lean ====
section
/-! DEFINITION. The host's text adapters (spec/60_exceptions.md R205, R206): text is a list of characters. -/

namespace Sys2Proof.Machine

/-- The value of a decimal digit character. -/
def digitValue (c : Char) : Option Nat :=
  if '0'.toNat ≤ c.toNat ∧ c.toNat ≤ '9'.toNat then some (c.toNat - '0'.toNat) else none

/-- The number a run of decimal digits denotes after `acc`; `none` at any other character. -/
def digitsFrom (acc : Nat) (cs : List Char) : Option Nat :=
  match cs with
  | [] => some acc
  | c :: rest =>
    match digitValue c with
    | none => none
    | some d => digitsFrom (10 * acc + d) rest

/-- One or more decimal digits. -/
def parseNat (cs : List Char) : Option Nat :=
  match cs with
  | [] => none
  | c :: rest => digitsFrom 0 (c :: rest)

/-- "an optional `+` or `-` followed by one or more decimal digits" (R205). -/
def parseInt (cs : List Char) : Option Int :=
  match cs with
  | [] => none
  | c :: rest =>
    if c = '-' then (parseNat rest).map (fun n : Nat => -(n : Int))
    else if c = '+' then (parseNat rest).map (fun n : Nat => (n : Int))
    else (parseNat (c :: rest)).map (fun n : Nat => (n : Int))

/-- A space or a tab. -/
def isBlank (c : Char) : Bool := decide (c = ' ') || decide (c = '\t')

/-- Spaces and tabs removed from both ends. -/
def trim (cs : List Char) : List Char := ((cs.dropWhile isBlank).reverse.dropWhile isBlank).reverse

/-- One trailing carriage return removed. -/
def dropCr (cs : List Char) : List Char :=
  match cs.reverse with
  | [] => []
  | c :: rest => if c = '\r' then rest.reverse else cs

/-- A line with spaces, tabs and a trailing carriage return removed from both ends (R205; the order of removal is log 15). -/
def trimLine (cs : List Char) : List Char := trim (dropCr (trim cs))

/-- The token of a line: its value if it is a decimal integer in `int64`, else `Malformed` (R205). -/
def tokenOfLine (cs : List Char) : Token :=
  match parseInt (trimLine cs) with
  | none => .malformed
  | some x => if fitsWord x then .val (wrap64 x) else .malformed

/-- The lines of a text: each without its newline; a final line without one counts (R205). `cur` holds the line read so far, last
character first. -/
def linesFrom (cur : List Char) (cs : List Char) : List (List Char) :=
  match cs with
  | [] => if cur = [] then [] else [cur.reverse]
  | c :: rest => if c = '\n' then cur.reverse :: linesFrom [] rest else linesFrom (c :: cur) rest

/-- The host operation that pushes a token (R205). -/
def pushOp (t : Token) : HostOp :=
  match t with
  | .val v => .pushIn v
  | .malformed => .pushMalformed

/-- The input adapter: one push per line, then CLOSE_IN at the end of the text (R205). -/
def inputOps (text : List Char) : List HostOp := (linesFrom [] text).map (fun l => pushOp (tokenOfLine l)) ++ [.closeIn]

/-- The decimal digits of `n` with no leading zeros, put before `acc`; `fuel` bounds their number. -/
def digitsOf (fuel n : Nat) (acc : List Char) : List Char :=
  match fuel with
  | 0 => acc
  | fuel + 1 =>
    let acc := Char.ofNat ('0'.toNat + n % 10) :: acc
    if n / 10 = 0 then acc else digitsOf fuel (n / 10) acc

/-- A value's decimal text: an optional `-` and the digits with no leading zeros (R206). An `int64` has at most 19 digits. -/
def decimal (v : Word) : List Char :=
  if v.toInt < 0 then '-' :: digitsOf 20 v.toInt.natAbs [] else digitsOf 20 v.toInt.natAbs []

/-- The output adapter: each value "as its decimal text representation followed by a newline" (R206). -/
def outputText (vs : List Word) : List Char :=
  match vs with
  | [] => []
  | v :: rest => decimal v ++ '\n' :: outputText rest

end Sys2Proof.Machine
end

