-- ==== Sys2Proof/Machine/Assembler.lean ====
section
/-! DEFINITION. The assembler syntax this spec fixes (spec/30_encoding.md R88-R91, decision D24). It has no effect on the machine: it
turns a text into a program image. `none` is an assembly error. -/

namespace Sys2Proof.Machine.Assembler

/-- `e`: "a decimal integer with optional sign, or a label (its address)" (R89). -/
inductive Expr where
  | num (n : Int)
  | label (name : List Char)
  deriving DecidableEq, Repr

/-- An operand as written: its mode, and its raw value as an expression, negated for `[rb-e]` (R89). -/
structure Operand where
  mode : Mode
  neg : Bool
  expr : Expr
  deriving DecidableEq, Repr

/-- What a line holds after its labels (R88, R90). -/
inductive Body where
  | nothing
  | instr (opcode : Nat) (operands : List Operand)
  | word (values : List Expr)
  deriving DecidableEq, Repr

/-- A line: the labels it defines and its body. -/
structure Line where
  labels : List (List Char)
  body : Body
  deriving DecidableEq, Repr

/-- The pieces of `cs` between the characters `sep`; `cur` holds the piece read so far, last character first. -/
def splitFrom (sep : Char) (cur : List Char) (cs : List Char) : List (List Char) :=
  match cs with
  | [] => [cur.reverse]
  | c :: rest => if c = sep then cur.reverse :: splitFrom sep [] rest else splitFrom sep (c :: cur) rest

/-- The mnemonics of R72. -/
def opcodeOf (m : List Char) : Option Nat :=
  if m = "ADD".toList then some 1
  else if m = "MUL".toList then some 2
  else if m = "IN".toList then some 3
  else if m = "OUT".toList then some 4
  else if m = "JT".toList then some 5
  else if m = "JF".toList then some 6
  else if m = "LT".toList then some 7
  else if m = "EQ".toList then some 8
  else if m = "ARB".toList then some 9
  else if m = "HALT".toList then some 99
  else none

/-- A label begins with a letter or `_` and goes on with letters, digits and `_` (DESIGN CHOICE, log 16). -/
def isLabel (cs : List Char) : Bool :=
  match cs with
  | [] => false
  | c :: rest => (c.isAlpha || c == '_') && rest.all (fun c => c.isAlphanum || c == '_')

/-- `e` (R89). -/
def parseExpr (cs : List Char) : Option Expr :=
  match parseInt cs with
  | some n => some (.num n)
  | none => if isLabel cs then some (.label cs) else none

/-- What stands between the brackets of `[e]`, `[rb+e]` or `[rb-e]` (R89). -/
def parseInside (cs : List Char) : Option Operand :=
  match cs with
  | 'r' :: 'b' :: '+' :: e => (parseExpr e).map (fun e => ⟨.relative, false, e⟩)
  | 'r' :: 'b' :: '-' :: e => (parseExpr e).map (fun e => ⟨.relative, true, e⟩)
  | e => (parseExpr e).map (fun e => ⟨.position, false, e⟩)

/-- One operand (R89). Blanks around it are dropped, and none may stand inside it (DESIGN CHOICE, log 16). -/
def parseOperand (cs : List Char) : Option Operand :=
  match trim cs with
  | '#' :: e => (parseExpr e).map (fun e => ⟨.immediate, false, e⟩)
  | '[' :: rest =>
    match rest.reverse with
    | ']' :: inside => parseInside inside.reverse
    | _ => none
  | _ => none

/-- Every element parsed, or an error. -/
def parseAll {α : Type} (f : List Char → Option α) (l : List (List Char)) : Option (List α) :=
  match l with
  | [] => some []
  | c :: rest =>
    match f c with
    | none => none
    | some x =>
      match parseAll f rest with
      | none => none
      | some xs => some (x :: xs)

/-- The comma-separated pieces of an operand field; an empty field has none. -/
def fieldPieces (cs : List Char) : List (List Char) := if trim cs = [] then [] else splitFrom ',' [] cs

/-- An instruction or directive: the mnemonic, a blank, the operands (R88, R90). Nothing at all is a body too, a mnemonic is written in
capitals as R72 has it, and `.word` has at least one value (DESIGN CHOICE, log 16). -/
def parseBody (cs : List Char) : Option Body :=
  let name := cs.takeWhile (fun c => !isBlank c)
  let field := cs.dropWhile (fun c => !isBlank c)
  if name = [] then some .nothing
  else if name = ".word".toList then
    match parseAll (fun c => parseExpr (trim c)) (fieldPieces field) with
    | some (v :: vs) => some (.word (v :: vs))
    | _ => none
  else
    match opcodeOf name with
    | none => none
    | some op => (parseAll parseOperand (fieldPieces field)).map (.instr op)

/-- Every piece but the last is a label; the last is the body (R88: `label:` before an instruction or directive). R88 speaks of one
label: that several may stand before one body, each naming its first cell, is the model's choice, and so are the blanks allowed around
a label and the body (DESIGN CHOICE, log 16). -/
def parsePieces (l : List (List Char)) : Option Line :=
  match l with
  | [] => some ⟨[], .nothing⟩
  | [b] => (parseBody (trim b)).map (fun b => ⟨[], b⟩)
  | name :: rest =>
    if isLabel (trim name) then (parsePieces rest).map (fun l => ⟨trim name :: l.labels, l.body⟩) else none

/-- One line: `;` starts a comment to its end (R88). A carriage return at the end of what stands before the comment is dropped, of which
R88 says nothing (DESIGN CHOICE, log 16). -/
def parseLine (cs : List Char) : Option Line := parsePieces (splitFrom ':' [] (dropCr (cs.takeWhile (fun c => c != ';'))))

/-- The number of cells a body takes (R70, R90). -/
def Body.size (b : Body) : Nat :=
  match b with
  | .nothing => 0
  | .instr _ operands => 1 + operands.length
  | .word values => values.length

/-- Every label with its address, the lines laid from address `a` on (R88). -/
def labelsFrom (a : Nat) (l : List Line) : List (List Char × Nat) :=
  match l with
  | [] => []
  | x :: rest => x.labels.map (fun n => (n, a)) ++ labelsFrom (a + x.body.size) rest

/-- The value of an expression; an undefined label is an error (DESIGN CHOICE, log 16). -/
def Expr.eval (env : List (List Char × Nat)) (e : Expr) : Option Int :=
  match e with
  | .num n => some n
  | .label name => (env.lookup name).map (fun (a : Nat) => (a : Int))

/-- A value as a cell; one outside `int64` is an error (DESIGN CHOICE, log 16). -/
def cellOf (x : Option Int) : Option Word :=
  match x with
  | none => none
  | some x => if fitsWord x then some (wrap64 x) else none

/-- An operand as a parameter (R89). -/
def Operand.param (env : List (List Char × Nat)) (o : Operand) : Option Param :=
  match cellOf ((o.expr.eval env).map (fun x => if o.neg then -x else x)) with
  | none => none
  | some raw => some ⟨o.mode, raw⟩

/-- The parameters of the operands, in order. -/
def paramsOf (env : List (List Char × Nat)) (l : List Operand) : Option (List Param) :=
  match l with
  | [] => some []
  | o :: rest =>
    match o.param env with
    | none => none
    | some p =>
      match paramsOf env rest with
      | none => none
      | some ps => some (p :: ps)

/-- The cells of the values of `.word`, in order (R90). -/
def cellsOf (env : List (List Char × Nat)) (l : List Expr) : Option (List Word) :=
  match l with
  | [] => some []
  | e :: rest =>
    match cellOf (e.eval env) with
    | none => none
    | some v =>
      match cellsOf env rest with
      | none => none
      | some vs => some (v :: vs)

/-- The cells of a body (R90, R91). A wrong operand count, or an Immediate operand in a write slot (R89), is an error. -/
def Body.cells (env : List (List Char × Nat)) (b : Body) : Option (List Word) :=
  match b with
  | .nothing => some []
  | .word values => cellsOf env values
  | .instr op operands =>
    match paramsOf env operands with
    | none => none
    | some ps =>
      match assembleInstr op ps with
      | none => none
      | some i => if i.wf then some (encode i) else none

/-- The cells of all lines, in order. -/
def imageOf (env : List (List Char × Nat)) (l : List Line) : Option (List Word) :=
  match l with
  | [] => some []
  | x :: rest =>
    match x.body.cells env with
    | none => none
    | some c =>
      match imageOf env rest with
      | none => none
      | some cs => some (c ++ cs)

/-- No label is defined twice (DESIGN CHOICE, log 16). -/
def distinct (l : List (List Char)) : Bool :=
  match l with
  | [] => true
  | x :: rest => !rest.contains x && distinct rest

/-- Assemble a text into a program image (R88-R91). -/
def assemble (text : List Char) : Option (List Word) :=
  match parseAll parseLine (linesFrom [] text) with
  | none => none
  | some lines =>
    let env := labelsFrom 0 lines
    if distinct (env.map (·.1)) then imageOf env lines else none

end Sys2Proof.Machine.Assembler
end

