-- ==== Sys2Proof/Safety.lean ====
section
/-! DEFINITION. What claims are stated in: the invariant of the machine, and what an operand names, said apart from the functions that
resolve it. -/

namespace Sys2Proof.Machine

/-- No cell at or beyond `MLEN` is listed, so every one reads 0 (spec/10_state.md R30). -/
def Memory.below (n : Nat) (m : Memory) : Bool := m.all (fun c => decide (c.1 < n))

/-- The invariant of one core: memory is in canonical form and empty beyond `MLEN`, `MLEN` and `PC` lie in their ranges (R22, R30), and
the fault record holds a fault exactly when `STATUS` is FAULTED, naming the instruction at `PC` (R29, spec/60_exceptions.md R170). -/
structure CoreRegs.Inv (p : Params) (c : CoreRegs) : Prop where
  mem_canonical : Memory.wf c.mem = true
  mem_below : Memory.below c.mlen c.mem = true
  mlen_le : c.mlen ≤ p.memCapacity
  pc_le : c.pc ≤ 2 ^ 63
  faulted_iff : c.status = .faulted ↔ c.faultCause ≠ .none
  fault_pc : c.status = .faulted → c.faultPc = c.pc
  no_record : c.status ≠ .faulted → c.faultPc = 0 ∧ c.faultWord = 0#64 ∧ c.faultAddr = 0

/-- A queue holds at most `QUEUE_DEPTH` entries (R31, R33). -/
def queueFits (p : Params) (len : Nat) : Bool :=
  match p.queueDepth with
  | none => true
  | some d => decide (len ≤ d)

/-- The invariant of the ring: N cores, each with its invariant, channels within their depth; while the network runs every core's `RUN` is
set and none is FAULTED (spec/60_exceptions.md R194, R200); a network that is done has only halted cores and a result (R199). -/
structure State.NetInv (s : State) : Prop where
  count : s.nodes.length = s.params.ampCount
  cores : ∀ n ∈ s.nodes, CoreRegs.Inv s.params n.core
  channels : ∀ n ∈ s.nodes, queueFits s.params n.chan.length = true
  failCore : s.netFailCore < s.params.ampCount
  running : s.netStatus = .running → ∀ n ∈ s.nodes, n.core.run = true ∧ n.core.status ≠ .faulted
  finished : s.netStatus = .done → s.netResultValid = true ∧ ∀ n ∈ s.nodes, n.core.status = .halted

/-- The invariant of the machine. -/
structure State.Inv (s : State) : Prop where
  params : s.params.valid = true
  image : s.image.length ≤ s.params.memCapacity
  startPc : s.startPc < s.params.memCapacity
  core : CoreRegs.Inv s.params s.core
  inq : queueFits s.params s.inq.length = true
  outq : queueFits s.params s.outq.length = true
  net : s.NetInv

/-! Operands, as spec/30_encoding.md R80, R81 say them. -/

/-- The address `a` exists: 0 .. `MEM_CAPACITY` - 1 (spec/20_memory.md R51). -/
abbrev validAddr (p : Params) (a : Int) : Prop := 0 ≤ a ∧ a < (p.memCapacity : Int)

/-- The slot can be read: it is Immediate, or its address exists (R80). -/
abbrev State.readable (s : State) (p : Param) : Prop := p.mode = .immediate ∨ validAddr s.params (effAddr s.core p)

/-- The slot can be written: it is not Immediate, and its address exists (R81). -/
abbrev State.targetable (s : State) (p : Param) : Prop := p.mode ≠ .immediate ∧ validAddr s.params (effAddr s.core p)

/-- The value of a readable slot (R80): the raw value itself, or the cell at its address. -/
def State.operandValue (s : State) (p : Param) : Word :=
  match p.mode with
  | .position => Memory.read s.core.mem p.raw.toInt.toNat
  | .immediate => p.raw
  | .relative => Memory.read s.core.mem (s.core.rb.toInt + p.raw.toInt).toNat

/-- The address of a slot as an index of memory. -/
def State.slotAddr (s : State) (p : Param) : Nat := (effAddr s.core p).toNat

/-- The addresses resolving a slot for reading touches: none for Immediate (spec/40_cycle.md R115). -/
def State.slotTouched (s : State) (p : Param) : List Nat :=
  match p.mode with
  | .position => [s.slotAddr p]
  | .immediate => []
  | .relative => [s.slotAddr p]

/-- A result is stored without an `OVERFLOW` fault: it lies in `int64`, or `OVERFLOW_MODE` is WRAP (R122). -/
abbrev State.noOverflow (s : State) (x : Int) : Prop := (-(2 ^ 63) ≤ x ∧ x < 2 ^ 63) ∨ s.params.overflowMode = .wrap

/-- Everything but the executing core and its queues is the same in both states: the ring, the parameters and what the host keeps. -/
abbrev sameOutside (s t : State) : Prop :=
  t.params = s.params ∧ t.image = s.image ∧ t.startPc = s.startPc ∧ t.nodes = s.nodes ∧ t.netStatus = s.netStatus ∧
    t.netResult = s.netResult ∧ t.netResultValid = s.netResultValid ∧ t.netFailCore = s.netFailCore ∧ t.tick = s.tick

/-- The executing core's registers other than `MEM`, `MLEN`, `PC`, `RB` and `STATUS` are the same: `RUN` and the fault record. -/
abbrev sameControl (c d : CoreRegs) : Prop :=
  d.run = c.run ∧ d.faultCause = c.faultCause ∧ d.faultPc = c.faultPc ∧ d.faultWord = c.faultWord ∧ d.faultAddr = c.faultAddr

/-- The three queues are the same. -/
abbrev sameQueues (s t : State) : Prop := t.inq = s.inq ∧ t.inEos = s.inEos ∧ t.outq = s.outq

/-! What a step does, said by what can be read before and after it. -/

/-- The word is `wrap64` of the integer: the one `int64` congruent to it modulo 2^64 (spec/00_scope.md R8). -/
abbrev congruent64 (v : Word) (x : Int) : Prop := (2 ^ 64 : Int) ∣ v.toInt - x

/-- `MLEN` grew from `m` to `n` over the touched addresses: to the highest of them plus one where that is more, and no further (R53). -/
def grownOver (m n : Nat) (touched : List Nat) : Prop :=
  m ≤ n ∧ (∀ a ∈ touched, a < n) ∧ (n = m ∨ ∃ a ∈ touched, n = a + 1)

/-- What every committing step has in common: `PC` takes the value `next`, `MLEN` grows over the instruction's own `len` cells and the
addresses its operands touched, and nothing outside the executing core changes, nor its `RUN` and fault record (spec/40_cycle.md R110). -/
def commits (s t : State) (len : Nat) (touched : List Nat) (next : Nat) : Prop :=
  t.core.pc = next ∧ grownOver s.core.mlen t.core.mlen ((List.range len).map (s.core.pc + ·) ++ touched) ∧
    sameControl s.core t.core ∧ sameOutside s t

/-- Every cell reads as before (R114). -/
def sameCells (s t : State) : Prop := ∀ k, Memory.read t.core.mem k = Memory.read s.core.mem k

/-- Every cell but `a` reads as before (R114). -/
def sameCellsBut (s t : State) (a : Nat) : Prop := ∀ k, k ≠ a → Memory.read t.core.mem k = Memory.read s.core.mem k

/-- The outcome is the fault of R170: `STATUS` and the fault record written, everything else as it was (R111). -/
def faultsWith (s : State) (cause : Cause) (addr : Int) (r : Host.Outcome State Fault Refusal) : Prop :=
  ∃ t, r = .next t ∧ t.core.status = .faulted ∧ t.core.faultCause = cause ∧ t.core.faultPc = s.core.pc ∧
    t.core.faultWord = (if s.core.pc < s.params.memCapacity then Memory.read s.core.mem s.core.pc else 0#64) ∧
    t.core.faultAddr = addr ∧ t.core.mem = s.core.mem ∧ t.core.mlen = s.core.mlen ∧ t.core.pc = s.core.pc ∧
    t.core.rb = s.core.rb ∧ t.core.run = s.core.run ∧ sameQueues s t ∧ sameOutside s t

/-- The instruction word at `PC` (spec/40_cycle.md R101). -/
abbrev State.fetchedWord (s : State) : Word := Memory.read s.core.mem s.core.pc

/-- Parameter cell `k` of the instruction at `PC` (R103). -/
abbrev State.fetchedRaw (s : State) (k : Nat) : Word := Memory.read s.core.mem (s.core.pc + k)

/-- The core may step and its fetch address exists. -/
abbrev State.fetching (s : State) : Prop := s.core.enabled = true ∧ s.core.pc < s.params.memCapacity

end Sys2Proof.Machine

namespace Sys2Proof

/-- The write slot of R72. -/
def Instr.writeSlot (i : Instr) : Option Param :=
  match i with
  | .add _ _ t => some t
  | .mul _ _ t => some t
  | .inp t => some t
  | .out _ => none
  | .jt _ _ => none
  | .jf _ _ => none
  | .lt _ _ t => some t
  | .eq _ _ t => some t
  | .arb _ => none
  | .halt => none

/-- The read slots of R72, in order. -/
def Instr.readSlots (i : Instr) : List Param :=
  match i with
  | .add a b _ => [a, b]
  | .mul a b _ => [a, b]
  | .inp _ => []
  | .out a => [a]
  | .jt a b => [a, b]
  | .jf a b => [a, b]
  | .lt a b _ => [a, b]
  | .eq a b _ => [a, b]
  | .arb a => [a]
  | .halt => []

end Sys2Proof

namespace Sys2Proof.Machine

/-- Every address the instruction at `PC` touches when it commits: its own cells, the addresses of its Position and Relative read slots,
and its write target (spec/40_cycle.md R115). -/
def State.touchedBy (s : State) (i : Instr) : List Nat :=
  (List.range (1 + i.params.length)).map (s.core.pc + ·) ++ i.readSlots.flatMap s.slotTouched ++
    (i.writeSlot.map s.slotAddr).toList

/-- The target of the jump an instruction takes; `none` where it takes none (R140, R141). -/
def State.jumpTarget (s : State) (i : Instr) : Option Int :=
  match i with
  | .jt a b => if s.operandValue a ≠ 0#64 then some (s.operandValue b).toInt else none
  | .jf a b => if s.operandValue a = 0#64 then some (s.operandValue b).toInt else none
  | .add _ _ _ => none
  | .mul _ _ _ => none
  | .inp _ => none
  | .out _ => none
  | .lt _ _ _ => none
  | .eq _ _ _ => none
  | .arb _ => none
  | .halt => none

/-- `x` is the address of an operand of the instruction at `PC` (spec/30_encoding.md R80, R81). -/
def State.operandAt (s : State) (x : Int) : Prop :=
  ∃ i p, fetch s = .ok i ∧ p ∈ i.params ∧ p.mode ≠ .immediate ∧ effAddr s.core p = x

/-- `x` is the address of a parameter cell of the instruction at `PC` (spec/40_cycle.md R103). -/
def State.parameterAt (s : State) (x : Int) : Prop :=
  ∃ i k, decode s.fetchedWord s.fetchedRaw = .ok i ∧ 1 ≤ k ∧ k ≤ i.params.length ∧ x = ((s.core.pc + k : Nat) : Int)

/-- What `FAULT_ADDR` holds after a fault of the instruction at `PC`: the address or target that the cause is about, 0 for a cause that
records none (spec/60_exceptions.md R170, R171). -/
def State.offendingAddr (s : State) (cause : Cause) (x : Int) : Prop :=
  match cause with
  | .negativeAddress => x < 0 ∧ s.operandAt x
  | .capacity => (s.params.memCapacity : Int) ≤ x ∧ (x = (s.core.pc : Int) ∨ s.parameterAt x ∨ s.operandAt x)
  | .jumpTargetNegative => x < 0 ∧ ∃ i, fetch s = .ok i ∧ s.jumpTarget i = some x
  | .none => x = 0
  | .unknownOpcode => x = 0
  | .illegalMode => x = 0
  | .immediateWrite => x = 0
  | .inputEnd => x = 0
  | .inputFormat => x = 0
  | .overflow => x = 0

end Sys2Proof.Machine
end

