-- ==== Sys2Proof/Certificates/Slice0/Obligations.lean ====
section
/-! DEFINITION. The statements for the provers. Each docstring names the rule of spec/ it formalises. -/

open Sys2Proof Sys2Proof.Machine

namespace Sys2Proof.Machine

/-- The 99 legal instruction words, as spec/30_encoding.md R84 lists them, one opcode a line. -/
def legalWords : List Nat :=
  [1, 101, 201, 1001, 1101, 1201, 2001, 2101, 2201, 20001, 20101, 20201, 21001, 21101, 21201, 22001, 22101, 22201] ++
  [2, 102, 202, 1002, 1102, 1202, 2002, 2102, 2202, 20002, 20102, 20202, 21002, 21102, 21202, 22002, 22102, 22202] ++
  [3, 203] ++
  [4, 104, 204] ++
  [5, 105, 205, 1005, 1105, 1205, 2005, 2105, 2205] ++
  [6, 106, 206, 1006, 1106, 1206, 2006, 2106, 2206] ++
  [7, 107, 207, 1007, 1107, 1207, 2007, 2107, 2207, 20007, 20107, 20207, 21007, 21107, 21207, 22007, 22107, 22207] ++
  [8, 108, 208, 1008, 1108, 1208, 2008, 2108, 2208, 20008, 20108, 20208, 21008, 21108, 21208, 22008, 22108, 22208] ++
  [9, 109, 209] ++
  [99]

/-- The opcodes of R72 with their parameter counts. -/
def opcodeCounts : List (Nat × Nat) := [(1, 3), (2, 3), (3, 1), (4, 1), (5, 2), (6, 2), (7, 3), (8, 3), (9, 1), (99, 0)]

end Sys2Proof.Machine

/-! Encoding. -/

/-- A few words written out from R71-R73, R91 decode to the instructions they stand for. -/
def Obligations.WrittenWordsDecode : Prop :=
  decodeCells [1101#64, 100#64, -1#64, 4#64] = .ok (.add ⟨.immediate, 100#64⟩ ⟨.immediate, -1#64⟩ ⟨.position, 4#64⟩, []) ∧
  decodeCells [21002#64, 5#64, 6#64, 7#64] = .ok (.mul ⟨.position, 5#64⟩ ⟨.immediate, 6#64⟩ ⟨.relative, 7#64⟩, []) ∧
  decodeCells [203#64, 9#64, 99#64] = .ok (.inp ⟨.relative, 9#64⟩, [99#64]) ∧
  decodeCells [1206#64, 0#64, 14#64] = .ok (.jf ⟨.relative, 0#64⟩ ⟨.immediate, 14#64⟩, []) ∧
  decodeCells [109#64, 1#64] = .ok (.arb ⟨.immediate, 1#64⟩, []) ∧
  decodeCells [99#64] = .ok (.halt, [])

/-- Decode and encode agree: the cells of a well-formed instruction, whatever cells follow them, decode to it and leave those that
follow (R70, R71, R85, R91). -/
def Obligations.DecodeOfEncode : Prop :=
  ∀ (i : Instr) (rest : List Word), i.wf = true → decodeCells (encode i ++ rest) = .ok (i, rest)

/-- The other direction: what a word and its parameter cells decode to is well formed, and its cells are that word and those cells, so
each instruction has one encoding (R71, R85, R91). -/
def Obligations.EncodeOfDecode : Prop :=
  ∀ (W : Word) (raw : Nat → Word) (i : Instr), decode W raw = .ok i →
    i.wf = true ∧ encode i = W :: (List.range i.params.length).map (fun k => raw (k + 1))

/-- R84: exactly the 99 listed values of `W` are legal, each an instruction of the opcode its line is listed under; every other value
faults at decode. -/
def Obligations.LegalWordsAreTheListed99 : Prop :=
  legalWords.length = 99 ∧ legalWords.Nodup ∧
  (∀ (W : Word) (raw : Nat → Word), (∃ i, decode W raw = .ok i) ↔ (∃ w ∈ legalWords, W.toInt = (w : Int))) ∧
  (∀ (W : Word) (raw : Nat → Word) (i : Instr), decode W raw = .ok i → i.opcode = W.toNat % 100)

/-! Decode faults of a step. -/

/-- R77: a negative word raises UNKNOWN_OPCODE. -/
def Obligations.NegativeWordsFault : Prop :=
  ∀ s : State, s.fetching → s.fetchedWord.toInt < 0 → faultsWith s .unknownOpcode 0 (stepCore s)

/-- R78: a word whose opcode is not in the table raises UNKNOWN_OPCODE. -/
def Obligations.UnknownOpcodesFault : Prop :=
  ∀ s : State, s.fetching → 0 ≤ s.fetchedWord.toInt → (∀ c ∈ opcodeCounts, s.fetchedWord.toNat % 100 ≠ c.1) →
    faultsWith s .unknownOpcode 0 (stepCore s)

/-- R76: a word with a digit beyond its opcode's parameter count raises ILLEGAL_MODE. -/
def Obligations.ExcessDigitsFault : Prop :=
  ∀ (s : State) (op n : Nat), s.fetching → 0 ≤ s.fetchedWord.toInt → (op, n) ∈ opcodeCounts →
    s.fetchedWord.toNat % 100 = op → 10 ^ (2 + n) ≤ s.fetchedWord.toNat → faultsWith s .illegalMode 0 (stepCore s)

/-- R75: a mode digit 3 .. 9 of a slot the opcode has raises ILLEGAL_MODE. -/
def Obligations.IllegalModeDigitsFault : Prop :=
  ∀ (s : State) (op n k : Nat), s.fetching → 0 ≤ s.fetchedWord.toInt → (op, n) ∈ opcodeCounts →
    s.fetchedWord.toNat % 100 = op → 1 ≤ k → k ≤ n → 3 ≤ s.fetchedWord.toNat / 10 ^ (1 + k) % 10 →
    faultsWith s .illegalMode 0 (stepCore s)

/-- R79: a write slot (slot 3 of ADD, MUL, LT, EQ, slot 1 of IN) whose mode digit is 1 raises IMMEDIATE_WRITE, every mode digit naming a
mode and no digit being in excess (R106 puts those checks first). -/
def Obligations.ImmediateWritesFault : Prop :=
  ∀ (s : State) (op n : Nat), s.fetching → 0 ≤ s.fetchedWord.toInt →
    (op, n) ∈ [(1, 3), (2, 3), (7, 3), (8, 3), (3, 1)] → s.fetchedWord.toNat % 100 = op → s.fetchedWord.toNat < 10 ^ (2 + n) →
    (∀ k, 1 ≤ k → k ≤ n → s.fetchedWord.toNat / 10 ^ (1 + k) % 10 ≤ 2) → s.fetchedWord.toNat / 10 ^ (1 + n) % 10 = 1 →
    faultsWith s .immediateWrite 0 (stepCore s)

/-! The step. -/

/-- R101, R102, R103, R115: while no network runs, the machine's step is the core's (log 3), and that of a core that is ready and running
executes the instruction its cells decode to. -/
def Obligations.StepRunsTheDecodedInstruction : Prop :=
  (∀ s : State, s.netStatus ≠ .running → step s = stepCore s) ∧
  (∀ (s : State) (i : Instr), s.netStatus ≠ .running → s.fetching → decode s.fetchedWord s.fetchedRaw = .ok i →
    s.core.pc + i.params.length < s.params.memCapacity → step s = exec i s)

/-- R195, R191, R197: a ring step of a core that may step is that core's step, with its upstream channel as INQ and its own channel as
OUTQ, whose core it puts back whole (no other core being FAULTED, which would abort it, R200), and then the network status is settled;
nothing outside the ring changes (log 3). It executes the instruction the core's cells decode to. -/
def Obligations.RingStepRunsTheDecodedInstruction : Prop :=
  (∀ (s : State) (i : Nat), s.netStatus = .running → i < s.nodes.length → s.ringCanStep i = true →
    ∃ v t, stepCore (s.ringView i) = .next v ∧ ringStepAt i s = .next t ∧ t = (s.ringAbsorb i v).settle ∧
      ((∀ n ∈ s.nodes, n.core.status ≠ .faulted) → (t.node i).core = v.core) ∧
      t.nodes.length = s.nodes.length ∧
      t = { s with
            nodes := t.nodes, netStatus := t.netStatus, netResult := t.netResult, netResultValid := t.netResultValid,
            netFailCore := t.netFailCore }) ∧
  (∀ (s : State) (i : Nat) (ins : Instr), s.netStatus = .running → i < s.nodes.length → s.ringCanStep i = true →
    (s.ringView i).core.pc < s.params.memCapacity →
    decode (s.ringView i).fetchedWord (s.ringView i).fetchedRaw = .ok ins →
    (s.ringView i).core.pc + ins.params.length < s.params.memCapacity →
    ∃ v, exec ins (s.ringView i) = .next v ∧ ringStepAt i s = .next (s.ringAbsorb i v).settle)

/-- A placed word is the first thing to run after reset (log 9 is the model's account of how a program comes to run). -/
def Obligations.PlacedWordRunsFirst : Prop :=
  ∀ (nbits w : Nat) (i : Instr), decodeTableWord nbits w = some i →
    step (State.reset.withFetchWord nbits w) = exec i (State.reset.withFetchWord nbits w)

/-- Every step answers a next state: faults are states of the machine (R170), and a core with no enabled step keeps its state (the
model's choice, logs 5 and 6). -/
def Obligations.EveryStepAnswersANextState : Prop := ∀ s : State, ∃ t, step s = .next t

/-- R112: HALTED and FAULTED are left only by reset (LOAD resets, R204): no step, no ring step and no other host operation changes the
core. That a core with no enabled step keeps its whole state is log 6. -/
def Obligations.OnlyResetLeavesTerminalStates : Prop :=
  ∀ (s t : State) (e : Event), s.core.status = .halted ∨ s.core.status = .faulted → s.after e = .next t →
    e ≠ .host .reset → (∀ P k, e ≠ .host (.load P k)) → t.core = s.core

/-- R28, R100, R107, R112: a core that is not started (`RUN` = 0), HALTED, FAULTED, or waiting on IN or OUT takes no step, so its whole
state, queues and all, is kept (log 6); nor does a ring core that may not step. -/
def Obligations.StalledStepsChangeNothing : Prop :=
  (∀ s : State, s.core.run = false ∨ s.core.status ≠ .ready ∨ s.waitIn = true ∨ s.waitOut = true → stepCore s = .next s) ∧
  (∀ (s : State) (i : Nat), (s.ringView i).core.run = false ∨ (s.ringView i).core.status ≠ .ready ∨ (s.ringView i).waitIn = true ∨
    (s.ringView i).waitOut = true → s.ringCanStep i = false ∧ ringStepAt i s = .next s)

/-- R34: the two derived wait signals. -/
def Obligations.WaitSignalsNameTheStalls : Prop :=
  (∀ s : State, s.waitIn = true ↔
    s.core.status = .ready ∧ s.core.run = true ∧ ∃ t, fetch s = .ok (.inp t) ∧ s.targetable t ∧ s.inq = [] ∧ s.inEos = false) ∧
  (∀ s : State, s.waitOut = true ↔
    s.core.status = .ready ∧ s.core.run = true ∧ ∃ a, fetch s = .ok (.out a) ∧ s.readable a ∧ s.params.queueDepth = some s.outq.length)

/-- R111: a step that raises a fault commits nothing of the instruction and writes only the status and the fault record of R170, whose
address is the one the cause is about: an operand's, a cell's of the instruction, or the jump's target, and 0 for the other causes. -/
def Obligations.FaultsArePrecise : Prop :=
  ∀ s t : State, s.core.status ≠ .faulted → stepCore s = .next t → t.core.status = .faulted →
    t.core.faultCause ≠ .none ∧ faultsWith s t.core.faultCause t.core.faultAddr (stepCore s) ∧
    s.offendingAddr t.core.faultCause t.core.faultAddr

/-- R108: the next `PC` of every committing step is `PC + 1 + n`, at most `MEM_CAPACITY`, except a taken jump's, which is its target. -/
def Obligations.AdvanceRule : Prop :=
  ∀ (s t : State) (i : Instr), s.core.enabled = true → fetch s = .ok i → s.waitIn = false → s.waitOut = false →
    stepCore s = .next t → t.core.status ≠ .faulted →
    s.core.pc + 1 + i.params.length ≤ s.params.memCapacity ∧
    (t.core.pc : Int) = (s.jumpTarget i).getD ((s.core.pc + 1 + i.params.length : Nat) : Int)

/-- R53: a committing step extends `MLEN` over every address it touches, the appended cells reading 0 as they did; a step that faults or
stalls extends nothing. -/
def Obligations.TouchedAddressesExtendTheMemory : Prop :=
  ∀ (s t : State) (i : Instr), s.core.enabled = true → fetch s = .ok i → stepCore s = .next t →
    (t.core.status = .faulted ∨ s.waitIn = true ∨ s.waitOut = true → t.core.mlen = s.core.mlen) ∧
    (t.core.status ≠ .faulted → s.waitIn = false → s.waitOut = false →
      grownOver s.core.mlen t.core.mlen (s.touchedBy i)) ∧
    (∀ a, s.core.mlen ≤ a → i.writeSlot.map s.slotAddr ≠ some a → Memory.read t.core.mem a = Memory.read s.core.mem a)

/-- R114: only the write target of ADD, MUL, LT, EQ and IN changes memory; JT, JF, OUT, ARB and HALT write no cell. -/
def Obligations.OnlyTheWriteTargetChanges : Prop :=
  ∀ (s t : State) (i : Instr) (a : Nat), exec i s = .next t → Memory.read t.core.mem a ≠ Memory.read s.core.mem a →
    ∃ p, i.writeSlot = some p ∧ s.targetable p ∧ a = s.slotAddr p

/-- Only ARB writes the relative base (R24). -/
def Obligations.OnlyArbWritesTheRelativeBase : Prop :=
  ∀ (s t : State) (i : Instr), exec i s = .next t → (∀ a, i ≠ .arb a) → t.core.rb = s.core.rb

/-- Only IN takes tokens, and at most its oldest; only OUT adds values, and at most one, as the newest (R31, R33, R132). -/
def Obligations.OnlyInAndOutMoveTheQueues : Prop :=
  ∀ (s t : State) (i : Instr), exec i s = .next t →
    t.inEos = s.inEos ∧
    (t.inq = s.inq ∨ (∃ p, i = .inp p) ∧ ∃ v, s.inq = .val v :: t.inq) ∧
    (t.outq = s.outq ∨ ∃ p, i = .out p ∧ t.outq = s.outq ++ [s.operandValue p])

/-- No instruction writes `RUN`, the ring, the parameters or what the host keeps, whatever its outcome (R28, R35, R39). -/
def Obligations.NoInstructionLeavesItsCore : Prop :=
  ∀ (s t : State) (i : Instr), exec i s = .next t → t.core.run = s.core.run ∧ sameOutside s t

/-! Operands and addresses. -/

/-- R51: the address check. -/
def Obligations.AddressCheck : Prop :=
  (∀ (p : Params) (a : Int), a < 0 → checkAddr p a = .error ⟨.negativeAddress, a⟩) ∧
  (∀ (p : Params) (a : Int), 0 ≤ a → (p.memCapacity : Int) ≤ a → checkAddr p a = .error ⟨.capacity, a⟩) ∧
  (∀ (p : Params) (k : Nat), k < p.memCapacity → checkAddr p (k : Int) = .ok k)

/-- R80: `resolve_read` in the three modes; `RB + r` is the exact integer sum. -/
def Obligations.ReadOperandsResolve : Prop :=
  ∀ (s : State) (r : Word),
    readOperand s ⟨.immediate, r⟩ = .ok ⟨r, []⟩ ∧
    (∀ k : Nat, r.toInt = k → k < s.params.memCapacity →
      readOperand s ⟨.position, r⟩ = .ok ⟨Memory.read s.core.mem k, [k]⟩) ∧
    (∀ k : Nat, s.core.rb.toInt + r.toInt = k → k < s.params.memCapacity →
      readOperand s ⟨.relative, r⟩ = .ok ⟨Memory.read s.core.mem k, [k]⟩) ∧
    (∀ e, checkAddr s.params r.toInt = .error e → readOperand s ⟨.position, r⟩ = .error e) ∧
    (∀ e, checkAddr s.params (s.core.rb.toInt + r.toInt) = .error e → readOperand s ⟨.relative, r⟩ = .error e)

/-- R81: `resolve_write` in the two modes a write slot can have. -/
def Obligations.WriteTargetsResolve : Prop :=
  ∀ (s : State) (r : Word),
    writeTarget s ⟨.position, r⟩ = checkAddr s.params r.toInt ∧
    writeTarget s ⟨.relative, r⟩ = checkAddr s.params (s.core.rb.toInt + r.toInt)

/-- R106 item 7, for every instruction: the first slot whose address does not exist decides the fault, negative before beyond the
capacity, and nothing later is evaluated (so an IN with a bad target faults on an empty queue too). -/
def Obligations.OperandFaultsInSlotOrder : Prop :=
  ∀ (s : State) (i : Instr) (k : Nat) (p : Param), i.wf = true → i.params[k]? = some p → p.mode ≠ .immediate →
    ¬ validAddr s.params (effAddr s.core p) →
    (∀ j q, j < k → i.params[j]? = some q → s.readable q) →
    faultsWith s (if effAddr s.core p < 0 then .negativeAddress else .capacity) (effAddr s.core p) (exec i s)

/-- R101, R103: a fetch address, or a parameter cell's address, at or beyond `MEM_CAPACITY` faults CAPACITY and names it. -/
def Obligations.FetchBeyondTheCapacityFaults : Prop :=
  (∀ s : State, s.core.enabled = true → s.params.memCapacity ≤ s.core.pc →
    faultsWith s .capacity (s.core.pc : Int) (stepCore s)) ∧
  (∀ (s : State) (i : Instr) (k : Nat), s.fetching → decode s.fetchedWord s.fetchedRaw = .ok i →
    1 ≤ k → k ≤ i.params.length → s.core.pc + k = s.params.memCapacity →
    faultsWith s .capacity ((s.core.pc + k : Nat) : Int) (stepCore s))

/-! What each instruction does: it completes, with its result and its frame. -/

/-- R120, R122: ADD stores the sum, wrapped where it lies outside `int64` and `OVERFLOW_MODE` is WRAP, and changes nothing else. -/
def Obligations.AddStoresTheSum : Prop :=
  ∀ (s : State) (a b t : Param), s.readable a → s.readable b → s.targetable t →
    s.noOverflow ((s.operandValue a).toInt + (s.operandValue b).toInt) →
    ∃ u, exec (.add a b t) s = .next u ∧
      congruent64 (Memory.read u.core.mem (s.slotAddr t)) ((s.operandValue a).toInt + (s.operandValue b).toInt) ∧
      sameCellsBut s u (s.slotAddr t) ∧
      commits s u 4 (s.slotTouched a ++ s.slotTouched b ++ [s.slotAddr t]) (s.core.pc + 4) ∧
      u.core.rb = s.core.rb ∧ u.core.status = s.core.status ∧ sameQueues s u

/-- R121, R122: MUL stores the product, in the same way. -/
def Obligations.MulStoresTheProduct : Prop :=
  ∀ (s : State) (a b t : Param), s.readable a → s.readable b → s.targetable t →
    s.noOverflow ((s.operandValue a).toInt * (s.operandValue b).toInt) →
    ∃ u, exec (.mul a b t) s = .next u ∧
      congruent64 (Memory.read u.core.mem (s.slotAddr t)) ((s.operandValue a).toInt * (s.operandValue b).toInt) ∧
      sameCellsBut s u (s.slotAddr t) ∧
      commits s u 4 (s.slotTouched a ++ s.slotTouched b ++ [s.slotAddr t]) (s.core.pc + 4) ∧
      u.core.rb = s.core.rb ∧ u.core.status = s.core.status ∧ sameQueues s u

/-- R150: LT stores 1 if `a < b` as signed integers, else 0. -/
def Obligations.LtStoresTheComparison : Prop :=
  ∀ (s : State) (a b t : Param), s.readable a → s.readable b → s.targetable t →
    ∃ u, exec (.lt a b t) s = .next u ∧
      ((s.operandValue a).toInt < (s.operandValue b).toInt → Memory.read u.core.mem (s.slotAddr t) = 1#64) ∧
      ((s.operandValue b).toInt ≤ (s.operandValue a).toInt → Memory.read u.core.mem (s.slotAddr t) = 0#64) ∧
      sameCellsBut s u (s.slotAddr t) ∧
      commits s u 4 (s.slotTouched a ++ s.slotTouched b ++ [s.slotAddr t]) (s.core.pc + 4) ∧
      u.core.rb = s.core.rb ∧ u.core.status = s.core.status ∧ sameQueues s u

/-- R151: EQ stores 1 if the two values are equal, else 0. -/
def Obligations.EqStoresTheComparison : Prop :=
  ∀ (s : State) (a b t : Param), s.readable a → s.readable b → s.targetable t →
    ∃ u, exec (.eq a b t) s = .next u ∧
      (s.operandValue a = s.operandValue b → Memory.read u.core.mem (s.slotAddr t) = 1#64) ∧
      (s.operandValue a ≠ s.operandValue b → Memory.read u.core.mem (s.slotAddr t) = 0#64) ∧
      sameCellsBut s u (s.slotAddr t) ∧
      commits s u 4 (s.slotTouched a ++ s.slotTouched b ++ [s.slotAddr t]) (s.core.pc + 4) ∧
      u.core.rb = s.core.rb ∧ u.core.status = s.core.status ∧ sameQueues s u

/-- R130: IN pops the oldest token and stores its value. -/
def Obligations.InStoresTheOldestToken : Prop :=
  ∀ (s : State) (t : Param) (v : Word) (rest : List Token), s.targetable t → s.inq = .val v :: rest →
    ∃ u, exec (.inp t) s = .next u ∧
      Memory.read u.core.mem (s.slotAddr t) = v ∧ sameCellsBut s u (s.slotAddr t) ∧
      u.inq = rest ∧ u.inEos = s.inEos ∧ u.outq = s.outq ∧
      commits s u 2 [s.slotAddr t] (s.core.pc + 2) ∧
      u.core.rb = s.core.rb ∧ u.core.status = s.core.status

/-- R130: on an empty open queue IN stalls; on an empty ended one it raises INPUT_END; a Malformed head raises INPUT_FORMAT and stays. -/
def Obligations.InWaitsOrFaultsWithoutAValue : Prop :=
  ∀ (s : State) (t : Param), s.targetable t →
    (s.inq = [] → s.inEos = false → exec (.inp t) s = .next s) ∧
    (s.inq = [] → s.inEos = true → faultsWith s .inputEnd 0 (exec (.inp t) s)) ∧
    (∀ rest, s.inq = .malformed :: rest → faultsWith s .inputFormat 0 (exec (.inp t) s))

/-- R131: OUT pushes its operand's value as the newest entry. -/
def Obligations.OutPushesItsValue : Prop :=
  ∀ (s : State) (a : Param), s.readable a → s.params.queueDepth ≠ some s.outq.length →
    ∃ u, exec (.out a) s = .next u ∧
      u.outq = s.outq ++ [s.operandValue a] ∧ u.inq = s.inq ∧ u.inEos = s.inEos ∧
      sameCells s u ∧ commits s u 2 (s.slotTouched a) (s.core.pc + 2) ∧
      u.core.rb = s.core.rb ∧ u.core.status = s.core.status

/-- R131, R133: on a full queue OUT stalls, whatever its consumer's state. -/
def Obligations.OutWaitsForRoom : Prop :=
  ∀ (s : State) (a : Param), s.readable a → s.params.queueDepth = some s.outq.length → exec (.out a) s = .next s

/-- R140: JT goes to `b` if `a` is not 0, and falls through otherwise; both operands are resolved in either case. -/
def Obligations.JtJumpsOnNonzero : Prop :=
  ∀ (s : State) (a b : Param), s.readable a → s.readable b →
    (s.operandValue a ≠ 0#64 → 0 ≤ (s.operandValue b).toInt →
      ∃ u, exec (.jt a b) s = .next u ∧ (u.core.pc : Int) = (s.operandValue b).toInt ∧
        commits s u 3 (s.slotTouched a ++ s.slotTouched b) u.core.pc ∧
        sameCells s u ∧ u.core.rb = s.core.rb ∧ u.core.status = s.core.status ∧ sameQueues s u) ∧
    (s.operandValue a = 0#64 →
      ∃ u, exec (.jt a b) s = .next u ∧ commits s u 3 (s.slotTouched a ++ s.slotTouched b) (s.core.pc + 3) ∧
        sameCells s u ∧ u.core.rb = s.core.rb ∧ u.core.status = s.core.status ∧ sameQueues s u)

/-- R141: JF goes to `b` if `a` is 0, and falls through otherwise. -/
def Obligations.JfJumpsOnZero : Prop :=
  ∀ (s : State) (a b : Param), s.readable a → s.readable b →
    (s.operandValue a = 0#64 → 0 ≤ (s.operandValue b).toInt →
      ∃ u, exec (.jf a b) s = .next u ∧ (u.core.pc : Int) = (s.operandValue b).toInt ∧
        commits s u 3 (s.slotTouched a ++ s.slotTouched b) u.core.pc ∧
        sameCells s u ∧ u.core.rb = s.core.rb ∧ u.core.status = s.core.status ∧ sameQueues s u) ∧
    (s.operandValue a ≠ 0#64 →
      ∃ u, exec (.jf a b) s = .next u ∧ commits s u 3 (s.slotTouched a ++ s.slotTouched b) (s.core.pc + 3) ∧
        sameCells s u ∧ u.core.rb = s.core.rb ∧ u.core.status = s.core.status ∧ sameQueues s u)

/-- R140, R141: a taken jump to a negative target raises JUMP_TARGET_NEGATIVE and names the target. -/
def Obligations.NegativeJumpTargetsFault : Prop :=
  ∀ (s : State) (a b : Param), s.readable a → s.readable b → (s.operandValue b).toInt < 0 →
    (s.operandValue a ≠ 0#64 → faultsWith s .jumpTargetNegative (s.operandValue b).toInt (exec (.jt a b) s)) ∧
    (s.operandValue a = 0#64 → faultsWith s .jumpTargetNegative (s.operandValue b).toInt (exec (.jf a b) s))

/-- R160, R122: ARB adds its operand to the relative base, the operand read with the old one. -/
def Obligations.ArbAddsToTheRelativeBase : Prop :=
  ∀ (s : State) (a : Param), s.readable a → s.noOverflow (s.core.rb.toInt + (s.operandValue a).toInt) →
    ∃ u, exec (.arb a) s = .next u ∧
      congruent64 u.core.rb (s.core.rb.toInt + (s.operandValue a).toInt) ∧
      sameCells s u ∧ commits s u 2 (s.slotTouched a) (s.core.pc + 2) ∧
      u.core.status = s.core.status ∧ sameQueues s u

/-- R161, R108: HALT advances `PC` by 1, sets `STATUS` to HALTED and changes nothing else. -/
def Obligations.HaltHalts : Prop :=
  ∀ s : State, ∃ u, exec .halt s = .next u ∧ u.core.status = .halted ∧ sameCells s u ∧
    commits s u 1 [] (s.core.pc + 1) ∧ u.core.rb = s.core.rb ∧ sameQueues s u

/-- R122, R160: under `OVERFLOW_MODE` = FAULT an ADD, MUL or ARB whose exact result lies outside `int64` raises OVERFLOW. -/
def Obligations.OverflowFaults : Prop :=
  ∀ (s : State) (a b t : Param), s.params.overflowMode = .fault → s.readable a →
    (s.readable b → s.targetable t → ¬ s.noOverflow ((s.operandValue a).toInt + (s.operandValue b).toInt) →
      faultsWith s .overflow 0 (exec (.add a b t) s)) ∧
    (s.readable b → s.targetable t → ¬ s.noOverflow ((s.operandValue a).toInt * (s.operandValue b).toInt) →
      faultsWith s .overflow 0 (exec (.mul a b t) s)) ∧
    (¬ s.noOverflow (s.core.rb.toInt + (s.operandValue a).toInt) → faultsWith s .overflow 0 (exec (.arb a) s))

/-! Invariants, reset, the host. -/

/-- The machine after reset meets the invariant. -/
def Obligations.ResetMeetsTheInvariant : Prop := State.Inv State.reset

/-- Every step keeps the invariant: canonical memory with nothing listed beyond `MLEN`, `MLEN` and `PC` in range (R22, R30), a fault
record exactly in FAULTED (R29), queues within their depth (R31, R33), and the ring's (R38, R194, R199, R200). -/
def Obligations.StepKeepsTheInvariant : Prop := ∀ s t : State, s.Inv → step s = .next t → t.Inv

/-- So does every other event: a host operation (R204), a ring step by any named core (R195), the building of a ring (R224). -/
def Obligations.EventsKeepTheInvariant : Prop :=
  ∀ (s t : State) (e : Event), e ≠ .step → s.Inv → s.after e = .next t → t.Inv

/-- R36: the value of every piece of core state after reset with the image and start position last loaded. Nothing else changes: RESET
is the reset of the one core (R204, R220), and the program, start position and parameters are none of its state (R39). -/
def Obligations.ResetRestoresEveryPieceOfState : Prop :=
  ∀ s : State, ∃ t, hostOp .reset s = some (t, .ack) ∧
    (∀ a, a < s.image.length → s.image[a]? = some (Memory.read t.core.mem a)) ∧
    (∀ a, s.image.length ≤ a → Memory.read t.core.mem a = 0#64) ∧
    t.core.mlen = s.image.length ∧ t.core.pc = s.startPc ∧ t.core.rb = 0#64 ∧ t.core.status = .ready ∧ t.core.run = false ∧
    t.core.faultCause = .none ∧ t.core.faultPc = 0 ∧ t.core.faultWord = 0#64 ∧ t.core.faultAddr = 0 ∧
    t.inq = [] ∧ t.inEos = false ∧ t.outq = [] ∧
    t = { s with core := t.core, inq := [], inEos := false, outq := [] }

/-- LOAD resets the core with the program and the start position, which it keeps for a later RESET, and changes nothing else (R204, R59,
R220). -/
def Obligations.LoadPlacesTheProgram : Prop :=
  ∀ (s t : State) (P : List Int) (k : Int) (r : HostReply), hostOp (.load P k) s = some (t, r) →
    (∀ (a : Nat) (x : Int), P[a]? = some x → (Memory.read t.core.mem a).toInt = x) ∧
    (∀ a, P.length ≤ a → Memory.read t.core.mem a = 0#64) ∧
    t.core.mlen = P.length ∧ (t.core.pc : Int) = k ∧ t.core.rb = 0#64 ∧ t.core.status = .ready ∧ t.core.run = false ∧
    t.core.faultCause = .none ∧ t.core.faultPc = 0 ∧ t.core.faultWord = 0#64 ∧ t.core.faultAddr = 0 ∧
    t.image.map (·.toInt) = P ∧ (t.startPc : Int) = k ∧
    t = { s with core := t.core, image := t.image, startPc := t.startPc, inq := [], inEos := false, outq := [] }

/-- The table of R204: an operation is accepted exactly when its precondition holds, a refused one changes nothing, and an accepted one
has its effect and changes nothing else (O46 and O47 say RESET's and LOAD's). The last clauses are the host's reading of a ring, whose
result is reported exactly once the network is DONE (log 19). -/
def Obligations.HostOperationsAreAcceptedOnTheirPreconditions : Prop :=
  ∀ s : State,
    (∀ P k, (hostOp (.load P k) s).isSome = true ↔
      (s.core.run = false ∨ s.core.status ≠ .ready) ∧ 0 ≤ k ∧ k < s.params.memCapacity ∧ P.length ≤ s.params.memCapacity ∧
        ∀ x ∈ P, -(2 ^ 63) ≤ x ∧ x < 2 ^ 63) ∧
    ((hostOp .start s).isSome = true ↔ s.core.status = .ready ∧ s.core.run = false) ∧
    (∀ v, (hostOp (.pushIn v) s).isSome = true ↔ s.inEos = false ∧ ∀ d, s.params.queueDepth = some d → s.inq.length < d) ∧
    ((hostOp .pushMalformed s).isSome = true ↔ s.inEos = false ∧ ∀ d, s.params.queueDepth = some d → s.inq.length < d) ∧
    (hostOp .closeIn s).isSome = true ∧
    ((hostOp .popOut s).isSome = true ↔ 0 < s.outq.length) ∧
    (hostOp .readStatus s).isSome = true ∧
    ((hostOp .dumpMem s).isSome = true ↔ s.core.run = false ∨ s.core.status ≠ .ready) ∧
    (hostOp .reset s).isSome = true ∧
    (∀ op, hostOp op s = none → s.after (.host op) = .next s) ∧
    (∀ op t r, hostOp op s = some (t, r) → s.after (.host op) = .next t) ∧
    (∀ t r, hostOp .start s = some (t, r) → t = { s with core := { s.core with run := true } }) ∧
    (∀ v t r, hostOp (.pushIn v) s = some (t, r) → t = { s with inq := s.inq ++ [.val v] }) ∧
    (∀ t r, hostOp .pushMalformed s = some (t, r) → t = { s with inq := s.inq ++ [.malformed] }) ∧
    (∀ t r, hostOp .closeIn s = some (t, r) → t = { s with inEos := true }) ∧
    (∀ t r, hostOp .popOut s = some (t, r) → ∃ v, r = .value v ∧ s.outq = v :: t.outq ∧ t = { s with outq := t.outq }) ∧
    (∀ t r, hostOp .readStatus s = some (t, r) → t = s ∧ r = .status
      { status := s.core.status, run := s.core.run, faultCause := s.core.faultCause, faultPc := s.core.faultPc,
        faultWord := s.core.faultWord, faultAddr := s.core.faultAddr, pc := s.core.pc, rb := s.core.rb, mlen := s.core.mlen,
        waitIn := s.waitIn, waitOut := s.waitOut, inqLen := s.inq.length, outqLen := s.outq.length }) ∧
    (∀ t r, hostOp .dumpMem s = some (t, r) → t = s ∧ ∃ cells, r = .memory cells ∧ cells.length = s.core.mlen ∧
      ∀ a, a < s.core.mlen → cells[a]? = some (Memory.read s.core.mem a)) ∧
    s.netReport.status = s.netStatus ∧ s.netReport.netResult = s.netResult ∧ s.netReport.failCore = s.netFailCore ∧
    (∀ v, s.netReport.result = some v ↔ s.netStatus = .done ∧ v = s.netResult) ∧
    s.netReport.cores.length = s.nodes.length ∧
    ∀ i, i < s.nodes.length → s.netReport.cores[i]? = some ((s.node i).core.status, (s.node i).core.faultCause,
      (s.node i).core.faultPc, (s.node i).core.faultWord, (s.node i).core.faultAddr)

/-- R207: no host operation but RESET (which R204 always accepts) writes the registers or memory of a running core. -/
def Obligations.HostLeavesARunningCoreAlone : Prop :=
  ∀ (s t : State) (op : HostOp) (r : HostReply), s.core.enabled = true → op ≠ .reset → hostOp op s = some (t, r) → t.core = s.core

/-! The Amplifier Ring. -/

/-- R197: a ring core's IN_EOS is 1 exactly when its upstream core is HALTED or FAULTED, and then an IN on its empty channel raises
INPUT_END. -/
def Obligations.RingStreamEndsWithItsProducer : Prop :=
  ∀ (s : State) (i : Nat), i < s.nodes.length →
    ((s.ringView i).inEos = true ↔
      ∃ n, s.nodes[(i + s.nodes.length - 1) % s.nodes.length]? = some n ∧ (n.core.status = .halted ∨ n.core.status = .faulted)) ∧
    (∀ (n : Node) (p : Param), s.nodes[(i + s.nodes.length - 1) % s.nodes.length]? = some n →
      (n.core.status = .halted ∨ n.core.status = .faulted) → n.chan = [] → (s.ringView i).targetable p →
      faultsWith (s.ringView i) .inputEnd 0 (exec (.inp p) (s.ringView i)))

/-- R192, R193: before any core runs, core `i`'s input holds `PHASES[i]`, and core 0's the driving value 0 after it. -/
def Obligations.BootFillsTheChannels : Prop :=
  ∀ (s : State) (P : List Word) (start : Nat) (phases : List Word) (i : Nat) (v : Word),
    phases.length = s.params.ampCount → phases[i]? = some v →
    ((((s.ringReset P start).ringPhases 0 phases).ringDrive).ringView i).inq =
      (if i = 0 then [.val v, .val 0#64] else [.val v])

/-- R190-R194, R220: a booted network has N cores, each reset with its own copy of the program at the start position and started, the
phases and the driving value in their input channels, its result and fail core cleared, and it runs if some core can step; that it is
deadlocked at once where none can is log 12. The standalone core is not touched (log 3). -/
def Obligations.BootStartsEveryCore : Prop :=
  ∀ (s t : State) (P : List Int) (k : Int) (phases : List Word), bootRing P k phases s = some t →
    t.nodes.length = s.params.ampCount ∧
    (∀ n ∈ t.nodes, n.core.run = true ∧ n.core.status = .ready ∧ (n.core.pc : Int) = k ∧ n.core.mlen = P.length ∧
      n.core.rb = 0#64 ∧ n.core.faultCause = .none ∧ n.core.faultPc = 0 ∧ n.core.faultWord = 0#64 ∧ n.core.faultAddr = 0 ∧
      (∀ a x, P[a]? = some x → (Memory.read n.core.mem a).toInt = x) ∧ ∀ a, P.length ≤ a → Memory.read n.core.mem a = 0#64) ∧
    (∀ i v, phases[i]? = some v → (t.ringView i).inq = (if i = 0 then [.val v, .val 0#64] else [.val v])) ∧
    t.netStatus = (if ∃ i < t.nodes.length, t.ringCanStep i = true then .running else .deadlock) ∧
    t.netResult = 0#64 ∧ t.netResultValid = false ∧ t.netFailCore = 0 ∧
    t = { s with
          nodes := t.nodes, netStatus := t.netStatus, netResult := 0#64, netResultValid := false, netFailCore := 0 }

/-- R195: every core that may step can be the one the free choice picks, and while the network runs the machine's step is the ring step of
the core it picks, one that may step, with the model's counter of choices advanced (log 4). -/
def Obligations.EveryReadyCoreCanBeChosen : Prop :=
  (∀ (s : State) (i : Nat), i < s.nodes.length → s.ringCanStep i = true → ∃ h, s.ringPick h = i) ∧
  (∀ s : State, s.netStatus = .running → (∃ i < s.nodes.length, s.ringCanStep i = true) →
    ∃ i t, i = s.ringPick (Config.schedule s.tick) ∧ i < s.nodes.length ∧ s.ringCanStep i = true ∧ ringStepAt i s = .next t ∧
      step s = .next { t with tick := s.tick + 1 })

/-- R62, R191, R198: an OUT of ring core `i` appends its value to `CH[i]` alone; core N-1's is the network's result. -/
def Obligations.RingOutputFeedsTheNextCore : Prop :=
  ∀ (s : State) (i : Nat) (a : Param), s.netStatus = .running → i < s.nodes.length → s.ringCanStep i = true →
    fetch (s.ringView i) = .ok (.out a) → (s.ringView i).readable a →
    ∃ t, ringStepAt i s = .next t ∧
      (t.node i).chan = (s.node i).chan ++ [(s.ringView i).operandValue a] ∧
      (∀ j, j ≠ i → (t.node j).chan = (s.node j).chan) ∧
      (i + 1 = s.nodes.length → t.netResult = (s.ringView i).operandValue a ∧ t.netResultValid = true) ∧
      (i + 1 ≠ s.nodes.length → t.netResult = s.netResult ∧ t.netResultValid = s.netResultValid)

/-- R62, R191: an IN of ring core `i` takes the oldest value of its upstream channel and no other channel changes. -/
def Obligations.RingInputTakesTheOldestValue : Prop :=
  ∀ (s : State) (i : Nat) (p : Param) (v : Word) (rest : List Word), s.netStatus = .running → i < s.nodes.length →
    s.ringCanStep i = true → fetch (s.ringView i) = .ok (.inp p) → (s.ringView i).targetable p →
    (s.node (upstream s.nodes.length i)).chan = v :: rest →
    ∃ t, ringStepAt i s = .next t ∧
      (t.node (upstream s.nodes.length i)).chan = rest ∧
      (∀ j, j ≠ upstream s.nodes.length i → (t.node j).chan = (s.node j).chan) ∧
      Memory.read (t.node i).core.mem ((s.ringView i).slotAddr p) = v ∧
      t.netResult = s.netResult ∧ t.netResultValid = s.netResultValid

/-- R55, R190: a ring step of one core changes no other core's memory or registers, but for `RUN`, which an abort clears (R200). Every
register of the other core is compared: its core is the same but for `RUN`. -/
def Obligations.RingStepsLeaveOtherCoresAlone : Prop :=
  ∀ (s t : State) (i j : Nat), ringStepAt i s = .next t → j ≠ i →
    (t.node j).core = { (s.node j).core with run := (t.node j).core.run } ∧
    ((t.node j).core.run = (s.node j).core.run ∨ t.netStatus = .failed ∧ (t.node j).core.run = false)

/-- R200: the ring step in which core `i` faults fails the network, names core `i`, stops every other core so that none takes another
step, and no result is reported. -/
def Obligations.AFaultFailsTheNetwork : Prop :=
  ∀ (s t : State) (i : Nat), s.netStatus = .running → i < s.nodes.length → (∀ n ∈ s.nodes, n.core.status ≠ .faulted) →
    ringStepAt i s = .next t → (t.node i).core.status = .faulted →
    t.netStatus = .failed ∧ t.netFailCore = i ∧ (t.node i).core.faultCause ≠ .none ∧ t.netReport.result = none ∧
    (∀ j, j < t.nodes.length → j ≠ i → (t.node j).core.run = false) ∧
    (∀ j, (t.ringView j).core.enabled = false)

/-- R199: the network status after a ring step, its conditions in order. -/
def Obligations.NetworkStatusAfterAStep : Prop :=
  ∀ (s t : State) (i : Nat), s.netStatus = .running → i < s.nodes.length → s.ringCanStep i = true → ringStepAt i s = .next t →
    t.netStatus =
      (if ∃ n ∈ t.nodes, n.core.status = .faulted then .failed
       else if ∀ n ∈ t.nodes, n.core.status = .halted then (if t.netResultValid = true then .done else .noResult)
       else if ∀ j < t.nodes.length, t.ringCanStep j = false then .deadlock
       else .running)

/-- Two ring cores that may both step can do so in either order with the same outcome, if neither faults: the ring's channels carry the
same values under every schedule (D21; G6 of spec/93_implementation_defined.md is the reason, from general knowledge). -/
def Obligations.RingStepsOfTwoCoresCommute : Prop :=
  ∀ (s si sj sij sji : State) (i j : Nat), s.Inv → s.netStatus = .running → i < s.nodes.length → j < s.nodes.length → i ≠ j →
    s.ringCanStep i = true → s.ringCanStep j = true →
    ringStepAt i s = .next si → ringStepAt j s = .next sj → ringStepAt j si = .next sij → ringStepAt i sj = .next sji →
    sij.netStatus ≠ .failed → sji.netStatus ≠ .failed → sij = sji

/-! The text adapters. -/

/-- R205, R206: the text the output adapter writes, read by the input adapter, is the same values and then the end of the stream. -/
def Obligations.OutputTextReadsBack : Prop :=
  ∀ vs : List Word, inputOps (outputText vs) = vs.map .pushIn ++ [.closeIn]
end

