-- ==== Sys2Proof/Laws/Decode.lean ====
section
/-! SUPPORT. The digit fields of an instruction word (spec/30_encoding.md R71). -/

namespace Sys2Proof

@[simp] theorem modeOfDigit_digit (m : Mode) : modeOfDigit m.digit = some m := by
  cases m <;> rfl

theorem modeOfDigit_eq_some {d : Nat} {m : Mode} (h : modeOfDigit d = some m) : d = m.digit := by
  unfold modeOfDigit at h
  split at h <;> simp at h <;> subst h <;> rfl

theorem modeOfDigit_isSome (d : Nat) : (modeOfDigit d).isSome = true ↔ d ≤ 2 := by
  unfold modeOfDigit
  split <;> simp
  rename_i h0 h1 h2
  have : d ≠ 0 := h0
  have : d ≠ 1 := h1
  have : d ≠ 2 := h2
  omega

theorem Mode.digit_le (m : Mode) : m.digit ≤ 2 := by
  cases m <;> decide

@[simp] theorem Instr.length_eq (i : Instr) : i.length = 1 + i.params.length := rfl

/-- The table's parameter count of an opcode is at most 3. -/
theorem paramCount_le {op n : Nat} (h : paramCount op = some n) : n ≤ 3 := by
  unfold paramCount at h
  split at h <;> simp at h <;> omega

/-- Slots whose mode digits are those of `ps` and whose raw values are theirs decode to `ps`. -/
theorem decodeSlots_of_digits {w : Nat} {raw : Nat → Word} (ps : List Param) (k : Nat)
    (h : ∀ j p, ps[j]? = some p → digit w (1 + k + j) = p.mode.digit ∧ raw (k + j) = p.raw) :
    decodeSlots w raw k ps.length = some ps := by
  induction ps generalizing k with
  | nil => rfl
  | cons p ps ih =>
    have h0 := h 0 p (by simp)
    have hr := ih (k + 1) (fun j q hq => by
      have := h (j + 1) q (by simpa using hq)
      rwa [show 1 + (k + 1) + j = 1 + k + (j + 1) by omega, show k + 1 + j = k + (j + 1) by omega])
    simp only [Nat.add_zero] at h0
    simp only [List.length_cons, decodeSlots, h0.1, modeOfDigit_digit, hr, h0.2]

/-- What decoded slots say of the word and its parameter cells. -/
theorem decodeSlots_inv {w : Nat} {raw : Nat → Word} {k n : Nat} {ps : List Param} (h : decodeSlots w raw k n = some ps) :
    ps.length = n ∧
      ∀ j, j < n → ∃ p, ps[j]? = some p ∧ digit w (1 + k + j) = p.mode.digit ∧ p.raw = raw (k + j) := by
  induction n generalizing k ps with
  | zero =>
    simp only [decodeSlots, Option.some.injEq] at h
    subst h
    simp
  | succ n ih =>
    unfold decodeSlots at h
    split at h
    · simp at h
    · rename_i m hm
      split at h
      · simp at h
      · rename_i qs hq
        cases h
        obtain ⟨hl, hi⟩ := ih hq
        refine ⟨by simp [hl], ?_⟩
        intro j hj
        cases j with
        | zero => exact ⟨⟨m, raw k⟩, by simp, by simpa using modeOfDigit_eq_some hm, rfl⟩
        | succ j =>
          obtain ⟨p, hp, hd, hr⟩ := hi j (by omega)
          refine ⟨p, by simpa using hp, ?_, ?_⟩
          · rw [← hd]
            congr 1
            omega
          · rw [hr]
            congr 1
            omega

/-- Slots fail to decode exactly where a mode digit names no mode (R75). -/
theorem decodeSlots_none {w : Nat} {raw : Nat → Word} {n k j : Nat} (hj : j < n) (hd : 3 ≤ digit w (1 + k + j)) :
    decodeSlots w raw k n = none := by
  induction n generalizing k j with
  | zero => omega
  | succ n ih =>
    unfold decodeSlots
    cases hm : modeOfDigit (digit w (1 + k)) with
    | none => rfl
    | some m =>
      cases j with
      | zero =>
        have := modeOfDigit_eq_some hm
        have := m.digit_le
        simp only [Nat.add_zero] at hd
        omega
      | succ j =>
        have := ih (k := k + 1) (j := j) (by omega) (by rwa [show 1 + (k + 1) + j = 1 + k + (j + 1) by omega])
        simp only [this]

/-- What an assembled instruction is made of. -/
theorem assembleInstr_inv {op : Nat} {ps : List Param} {i : Instr} (h : assembleInstr op ps = some i) :
    i.params = ps ∧ i.opcode = op := by
  unfold assembleInstr at h
  split at h <;> simp at h <;> subst h <;> exact ⟨rfl, rfl⟩

@[simp] theorem assembleInstr_params (i : Instr) : assembleInstr i.opcode i.params = some i := by
  cases i <;> rfl

@[simp] theorem paramCount_opcode (i : Instr) : paramCount i.opcode = some i.params.length := by
  cases i <;> rfl

/-- A parameter count the table gives is that of an instruction, whatever the parameters. -/
theorem assembleInstr_isSome {op n : Nat} {ps : List Param} (h : paramCount op = some n) (hl : ps.length = n) :
    ∃ i, assembleInstr op ps = some i := by
  unfold paramCount at h
  split at h <;> simp at h <;> subst h
  all_goals
    rcases ps with _ | ⟨a, _ | ⟨b, _ | ⟨c, _ | ⟨d, ps⟩⟩⟩⟩ <;> (simp at hl; try exact ⟨_, rfl⟩)

/-- A word whose opcode, digits and cells are those of a well-formed instruction decodes to it (R85). -/
theorem decode_of_fields {W : Word} {raw : Nat → Word} {i : Instr} (h0 : 0 ≤ W.toInt) (hop : W.toNat % 100 = i.opcode)
    (hlt : W.toNat < 10 ^ (2 + i.params.length)) (hs : decodeSlots W.toNat raw 1 i.params.length = some i.params)
    (hw : i.wf = true) : decode W raw = .ok i := by
  have h1 : ¬ W.toInt < 0 := by omega
  have h2 : ¬ 10 ^ (2 + i.params.length) ≤ W.toNat := by omega
  simp only [decode, if_neg h1, hop, paramCount_opcode, if_neg h2, hs, assembleInstr_params, hw, if_true]

/-- What a decoded word is made of: the fields of `decode_of_fields`. -/
theorem decode_inv {W : Word} {raw : Nat → Word} {i : Instr} (h : decode W raw = .ok i) :
    0 ≤ W.toInt ∧ W.toNat % 100 = i.opcode ∧ W.toNat < 10 ^ (2 + i.params.length) ∧
      decodeSlots W.toNat raw 1 i.params.length = some i.params ∧ i.wf = true := by
  unfold decode at h
  split at h
  · simp at h
  · rename_i h0
    split at h
    · simp at h
    · rename_i n hn
      split at h
      · simp at h
      · rename_i hlt
        split at h
        · simp at h
        · rename_i ps hps
          split at h
          · simp at h
          · rename_i j hj
            split at h
            · rename_i hwf
              cases h
              obtain ⟨h1, h2⟩ := assembleInstr_inv hj
              have hl := (decodeSlots_inv hps).1
              refine ⟨by omega, h2.symm, ?_, ?_, hwf⟩
              · rw [h1, hl]
                omega
              · rw [h1, hl]
                exact hps
            · simp at h

/-- The decoder reads no parameter cell beyond those its opcode has. -/
theorem decode_congr {W : Word} {raw raw' : Nat → Word} (h : ∀ k, 1 ≤ k → k ≤ 3 → raw k = raw' k) :
    decode W raw = decode W raw' := by
  have hs : ∀ n k, 1 ≤ k → k + n ≤ 4 → decodeSlots W.toNat raw k n = decodeSlots W.toNat raw' k n := by
    intro n
    induction n with
    | zero => intros; rfl
    | succ n ih =>
      intro k hk hn
      simp only [decodeSlots, ih (k + 1) (by omega) (by omega), h k hk (by omega)]
  unfold decode
  split
  · rfl
  · split
    · rfl
    · rename_i n hn
      have := paramCount_le hn
      rw [hs n 1 (by omega) (by omega)]

/-- A non-negative word is the natural number of its bits. -/
theorem toInt_eq_toNat_of_nonneg {W : Word} (h : 0 ≤ W.toInt) : W.toInt = (W.toNat : Int) := by
  have h1 := BitVec.toInt_eq_toNat_cond W
  have h2 := W.isLt
  split at h1 <;> omega

/-- The instruction word as the sum of its digits (R91). -/
theorem Instr.word_lt (i : Instr) : i.word < 10 ^ 5 := by
  have hd : ∀ m : Mode, m.digit ≤ 2 := Mode.digit_le
  cases i with
  | add a b t | mul a b t | lt a b t | eq a b t =>
    have := hd a.mode
    have := hd b.mode
    have := hd t.mode
    simp only [Instr.word, Instr.opcode, Instr.params, modeDigits]
    omega
  | jt a b | jf a b =>
    have := hd a.mode
    have := hd b.mode
    simp only [Instr.word, Instr.opcode, Instr.params, modeDigits]
    omega
  | inp a | out a | arb a =>
    have := hd a.mode
    simp only [Instr.word, Instr.opcode, Instr.params, modeDigits]
    omega
  | halt => decide

end Sys2Proof
end

