-- ==== Sys2Proof/Laws/State.lean ====
section
/-! SUPPORT. One lemma per field per update: what each shared update of State changes and what it leaves as it was. -/

namespace Sys2Proof.Machine

/-! Taking a fault. -/

@[simp] theorem CoreRegs.recordFault_mem (c : CoreRegs) (p : Params) (e : Trap) : (c.recordFault p e).mem = c.mem := rfl
@[simp] theorem CoreRegs.recordFault_mlen (c : CoreRegs) (p : Params) (e : Trap) : (c.recordFault p e).mlen = c.mlen := rfl
@[simp] theorem CoreRegs.recordFault_pc (c : CoreRegs) (p : Params) (e : Trap) : (c.recordFault p e).pc = c.pc := rfl
@[simp] theorem CoreRegs.recordFault_rb (c : CoreRegs) (p : Params) (e : Trap) : (c.recordFault p e).rb = c.rb := rfl
@[simp] theorem CoreRegs.recordFault_status (c : CoreRegs) (p : Params) (e : Trap) : (c.recordFault p e).status = .faulted := rfl
@[simp] theorem CoreRegs.recordFault_run (c : CoreRegs) (p : Params) (e : Trap) : (c.recordFault p e).run = c.run := rfl
@[simp] theorem CoreRegs.recordFault_faultCause (c : CoreRegs) (p : Params) (e : Trap) : (c.recordFault p e).faultCause = e.cause := rfl
@[simp] theorem CoreRegs.recordFault_faultPc (c : CoreRegs) (p : Params) (e : Trap) : (c.recordFault p e).faultPc = c.pc := rfl
@[simp] theorem CoreRegs.recordFault_faultWord (c : CoreRegs) (p : Params) (e : Trap) : (c.recordFault p e).faultWord = (if c.pc < p.memCapacity then Memory.read c.mem c.pc else 0#64) := rfl
@[simp] theorem CoreRegs.recordFault_faultAddr (c : CoreRegs) (p : Params) (e : Trap) : (c.recordFault p e).faultAddr = (if e.cause.recordsAddr then e.addr else 0) := rfl
@[simp] theorem State.recordFault_core (s : State) (e : Trap) : (s.recordFault e).core = s.core.recordFault s.params e := rfl
@[simp] theorem State.recordFault_params (s : State) (e : Trap) : (s.recordFault e).params = s.params := rfl
@[simp] theorem State.recordFault_image (s : State) (e : Trap) : (s.recordFault e).image = s.image := rfl
@[simp] theorem State.recordFault_startPc (s : State) (e : Trap) : (s.recordFault e).startPc = s.startPc := rfl
@[simp] theorem State.recordFault_inq (s : State) (e : Trap) : (s.recordFault e).inq = s.inq := rfl
@[simp] theorem State.recordFault_inEos (s : State) (e : Trap) : (s.recordFault e).inEos = s.inEos := rfl
@[simp] theorem State.recordFault_outq (s : State) (e : Trap) : (s.recordFault e).outq = s.outq := rfl
@[simp] theorem State.recordFault_nodes (s : State) (e : Trap) : (s.recordFault e).nodes = s.nodes := rfl
@[simp] theorem State.recordFault_netStatus (s : State) (e : Trap) : (s.recordFault e).netStatus = s.netStatus := rfl
@[simp] theorem State.recordFault_netResult (s : State) (e : Trap) : (s.recordFault e).netResult = s.netResult := rfl
@[simp] theorem State.recordFault_netResultValid (s : State) (e : Trap) : (s.recordFault e).netResultValid = s.netResultValid := rfl
@[simp] theorem State.recordFault_netFailCore (s : State) (e : Trap) : (s.recordFault e).netFailCore = s.netFailCore := rfl
@[simp] theorem State.recordFault_tick (s : State) (e : Trap) : (s.recordFault e).tick = s.tick := rfl

/-! The commit. -/

@[simp] theorem State.commit_core_mem (s : State) (len : Nat) (touched : List Nat) (next : Nat) : (s.commit len touched next).core.mem = s.core.mem := rfl
@[simp] theorem State.commit_core_mlen (s : State) (len : Nat) (touched : List Nat) (next : Nat) : (s.commit len touched next).core.mlen = extend s.core.mlen ((List.range len).map (s.core.pc + ·) ++ touched) := rfl
@[simp] theorem State.commit_core_pc (s : State) (len : Nat) (touched : List Nat) (next : Nat) : (s.commit len touched next).core.pc = next := rfl
@[simp] theorem State.commit_core_rb (s : State) (len : Nat) (touched : List Nat) (next : Nat) : (s.commit len touched next).core.rb = s.core.rb := rfl
@[simp] theorem State.commit_core_status (s : State) (len : Nat) (touched : List Nat) (next : Nat) : (s.commit len touched next).core.status = s.core.status := rfl
@[simp] theorem State.commit_core_run (s : State) (len : Nat) (touched : List Nat) (next : Nat) : (s.commit len touched next).core.run = s.core.run := rfl
@[simp] theorem State.commit_core_faultCause (s : State) (len : Nat) (touched : List Nat) (next : Nat) : (s.commit len touched next).core.faultCause = s.core.faultCause := rfl
@[simp] theorem State.commit_core_faultPc (s : State) (len : Nat) (touched : List Nat) (next : Nat) : (s.commit len touched next).core.faultPc = s.core.faultPc := rfl
@[simp] theorem State.commit_core_faultWord (s : State) (len : Nat) (touched : List Nat) (next : Nat) : (s.commit len touched next).core.faultWord = s.core.faultWord := rfl
@[simp] theorem State.commit_core_faultAddr (s : State) (len : Nat) (touched : List Nat) (next : Nat) : (s.commit len touched next).core.faultAddr = s.core.faultAddr := rfl
@[simp] theorem State.commit_params (s : State) (len : Nat) (touched : List Nat) (next : Nat) : (s.commit len touched next).params = s.params := rfl
@[simp] theorem State.commit_image (s : State) (len : Nat) (touched : List Nat) (next : Nat) : (s.commit len touched next).image = s.image := rfl
@[simp] theorem State.commit_startPc (s : State) (len : Nat) (touched : List Nat) (next : Nat) : (s.commit len touched next).startPc = s.startPc := rfl
@[simp] theorem State.commit_inq (s : State) (len : Nat) (touched : List Nat) (next : Nat) : (s.commit len touched next).inq = s.inq := rfl
@[simp] theorem State.commit_inEos (s : State) (len : Nat) (touched : List Nat) (next : Nat) : (s.commit len touched next).inEos = s.inEos := rfl
@[simp] theorem State.commit_outq (s : State) (len : Nat) (touched : List Nat) (next : Nat) : (s.commit len touched next).outq = s.outq := rfl
@[simp] theorem State.commit_nodes (s : State) (len : Nat) (touched : List Nat) (next : Nat) : (s.commit len touched next).nodes = s.nodes := rfl
@[simp] theorem State.commit_netStatus (s : State) (len : Nat) (touched : List Nat) (next : Nat) : (s.commit len touched next).netStatus = s.netStatus := rfl
@[simp] theorem State.commit_netResult (s : State) (len : Nat) (touched : List Nat) (next : Nat) : (s.commit len touched next).netResult = s.netResult := rfl
@[simp] theorem State.commit_netResultValid (s : State) (len : Nat) (touched : List Nat) (next : Nat) : (s.commit len touched next).netResultValid = s.netResultValid := rfl
@[simp] theorem State.commit_netFailCore (s : State) (len : Nat) (touched : List Nat) (next : Nat) : (s.commit len touched next).netFailCore = s.netFailCore := rfl
@[simp] theorem State.commit_tick (s : State) (len : Nat) (touched : List Nat) (next : Nat) : (s.commit len touched next).tick = s.tick := rfl

/-! The write. -/

@[simp] theorem State.store_core_mem (s : State) (a : Nat) (v : Word) : (s.store a v).core.mem = Memory.write s.core.mem a v := rfl
@[simp] theorem State.store_core_mlen (s : State) (a : Nat) (v : Word) : (s.store a v).core.mlen = s.core.mlen := rfl
@[simp] theorem State.store_core_pc (s : State) (a : Nat) (v : Word) : (s.store a v).core.pc = s.core.pc := rfl
@[simp] theorem State.store_core_rb (s : State) (a : Nat) (v : Word) : (s.store a v).core.rb = s.core.rb := rfl
@[simp] theorem State.store_core_status (s : State) (a : Nat) (v : Word) : (s.store a v).core.status = s.core.status := rfl
@[simp] theorem State.store_core_run (s : State) (a : Nat) (v : Word) : (s.store a v).core.run = s.core.run := rfl
@[simp] theorem State.store_core_faultCause (s : State) (a : Nat) (v : Word) : (s.store a v).core.faultCause = s.core.faultCause := rfl
@[simp] theorem State.store_core_faultPc (s : State) (a : Nat) (v : Word) : (s.store a v).core.faultPc = s.core.faultPc := rfl
@[simp] theorem State.store_core_faultWord (s : State) (a : Nat) (v : Word) : (s.store a v).core.faultWord = s.core.faultWord := rfl
@[simp] theorem State.store_core_faultAddr (s : State) (a : Nat) (v : Word) : (s.store a v).core.faultAddr = s.core.faultAddr := rfl
@[simp] theorem State.store_params (s : State) (a : Nat) (v : Word) : (s.store a v).params = s.params := rfl
@[simp] theorem State.store_image (s : State) (a : Nat) (v : Word) : (s.store a v).image = s.image := rfl
@[simp] theorem State.store_startPc (s : State) (a : Nat) (v : Word) : (s.store a v).startPc = s.startPc := rfl
@[simp] theorem State.store_inq (s : State) (a : Nat) (v : Word) : (s.store a v).inq = s.inq := rfl
@[simp] theorem State.store_inEos (s : State) (a : Nat) (v : Word) : (s.store a v).inEos = s.inEos := rfl
@[simp] theorem State.store_outq (s : State) (a : Nat) (v : Word) : (s.store a v).outq = s.outq := rfl
@[simp] theorem State.store_nodes (s : State) (a : Nat) (v : Word) : (s.store a v).nodes = s.nodes := rfl
@[simp] theorem State.store_netStatus (s : State) (a : Nat) (v : Word) : (s.store a v).netStatus = s.netStatus := rfl
@[simp] theorem State.store_netResult (s : State) (a : Nat) (v : Word) : (s.store a v).netResult = s.netResult := rfl
@[simp] theorem State.store_netResultValid (s : State) (a : Nat) (v : Word) : (s.store a v).netResultValid = s.netResultValid := rfl
@[simp] theorem State.store_netFailCore (s : State) (a : Nat) (v : Word) : (s.store a v).netFailCore = s.netFailCore := rfl
@[simp] theorem State.store_tick (s : State) (a : Nat) (v : Word) : (s.store a v).tick = s.tick := rfl

/-! Reset of the standalone core. -/

@[simp] theorem State.resetCore_core (s : State) : s.resetCore.core = CoreRegs.resetWith s.image s.startPc := rfl
@[simp] theorem State.resetCore_params (s : State) : s.resetCore.params = s.params := rfl
@[simp] theorem State.resetCore_image (s : State) : s.resetCore.image = s.image := rfl
@[simp] theorem State.resetCore_startPc (s : State) : s.resetCore.startPc = s.startPc := rfl
@[simp] theorem State.resetCore_inq (s : State) : s.resetCore.inq = [] := rfl
@[simp] theorem State.resetCore_inEos (s : State) : s.resetCore.inEos = false := rfl
@[simp] theorem State.resetCore_outq (s : State) : s.resetCore.outq = [] := rfl
@[simp] theorem State.resetCore_nodes (s : State) : s.resetCore.nodes = s.nodes := rfl
@[simp] theorem State.resetCore_netStatus (s : State) : s.resetCore.netStatus = s.netStatus := rfl
@[simp] theorem State.resetCore_netResult (s : State) : s.resetCore.netResult = s.netResult := rfl
@[simp] theorem State.resetCore_netResultValid (s : State) : s.resetCore.netResultValid = s.netResultValid := rfl
@[simp] theorem State.resetCore_netFailCore (s : State) : s.resetCore.netFailCore = s.netFailCore := rfl
@[simp] theorem State.resetCore_tick (s : State) : s.resetCore.tick = s.tick := rfl
@[simp] theorem CoreRegs.resetWith_mem (P : List Word) (start : Nat) : (CoreRegs.resetWith P start).mem = Memory.ofImage 0 P := rfl
@[simp] theorem CoreRegs.resetWith_mlen (P : List Word) (start : Nat) : (CoreRegs.resetWith P start).mlen = P.length := rfl
@[simp] theorem CoreRegs.resetWith_pc (P : List Word) (start : Nat) : (CoreRegs.resetWith P start).pc = start := rfl
@[simp] theorem CoreRegs.resetWith_rb (P : List Word) (start : Nat) : (CoreRegs.resetWith P start).rb = 0#64 := rfl
@[simp] theorem CoreRegs.resetWith_status (P : List Word) (start : Nat) : (CoreRegs.resetWith P start).status = .ready := rfl
@[simp] theorem CoreRegs.resetWith_run (P : List Word) (start : Nat) : (CoreRegs.resetWith P start).run = false := rfl
@[simp] theorem CoreRegs.resetWith_faultCause (P : List Word) (start : Nat) : (CoreRegs.resetWith P start).faultCause = .none := rfl
@[simp] theorem CoreRegs.resetWith_faultPc (P : List Word) (start : Nat) : (CoreRegs.resetWith P start).faultPc = 0 := rfl
@[simp] theorem CoreRegs.resetWith_faultWord (P : List Word) (start : Nat) : (CoreRegs.resetWith P start).faultWord = 0#64 := rfl
@[simp] theorem CoreRegs.resetWith_faultAddr (P : List Word) (start : Nat) : (CoreRegs.resetWith P start).faultAddr = 0 := rfl

/-! A ring core seen as an executing core. -/

@[simp] theorem State.ringView_core (s : State) (i : Nat) : (s.ringView i).core = (s.node i).core := rfl
@[simp] theorem State.ringView_params (s : State) (i : Nat) : (s.ringView i).params = s.params := rfl
@[simp] theorem State.ringView_image (s : State) (i : Nat) : (s.ringView i).image = s.image := rfl
@[simp] theorem State.ringView_startPc (s : State) (i : Nat) : (s.ringView i).startPc = s.startPc := rfl
@[simp] theorem State.ringView_inq (s : State) (i : Nat) : (s.ringView i).inq = (s.node (upstream s.nodes.length i)).chan.map .val := rfl
@[simp] theorem State.ringView_inEos (s : State) (i : Nat) : (s.ringView i).inEos = (s.node (upstream s.nodes.length i)).core.terminal := rfl
@[simp] theorem State.ringView_outq (s : State) (i : Nat) : (s.ringView i).outq = (s.node i).chan := rfl
@[simp] theorem State.ringView_nodes (s : State) (i : Nat) : (s.ringView i).nodes = s.nodes := rfl
@[simp] theorem State.ringView_netStatus (s : State) (i : Nat) : (s.ringView i).netStatus = s.netStatus := rfl
@[simp] theorem State.ringView_netResult (s : State) (i : Nat) : (s.ringView i).netResult = s.netResult := rfl
@[simp] theorem State.ringView_netResultValid (s : State) (i : Nat) : (s.ringView i).netResultValid = s.netResultValid := rfl
@[simp] theorem State.ringView_netFailCore (s : State) (i : Nat) : (s.ringView i).netFailCore = s.netFailCore := rfl
@[simp] theorem State.ringView_tick (s : State) (i : Nat) : (s.ringView i).tick = s.tick := rfl

end Sys2Proof.Machine
end

