-- ==== Sys2Proof/Laws/Memory.lean ====
section
/-! SUPPORT. Memory: read after write, and that every operation keeps the canonical form (spec/20_memory.md R52, R54). -/

namespace Sys2Proof.Machine

/-! Reading. -/

@[simp] theorem Memory.read_nil (a : Nat) : Memory.read [] a = 0#64 := rfl

theorem Memory.read_erase (m : Memory) (a b : Nat) :
    Memory.read (Memory.erase m a) b = if b = a then 0#64 else Memory.read m b := by
  induction m with
  | nil => simp [Memory.erase]
  | cons c rest ih =>
    obtain ⟨k, x⟩ := c
    by_cases hk : k = a
    · subst hk
      simp only [Memory.erase, if_true, ih, Memory.read]
      by_cases hb : b = k
      · simp [hb]
      · simp [hb, Ne.symm hb]
    · simp only [Memory.erase, if_neg hk, Memory.read, ih]
      by_cases hb : k = b
      · subst hb; simp [hk]
      · simp [hb]

theorem Memory.read_insert (m : Memory) (a : Nat) (v : Word) (b : Nat) (h : Memory.read m a = 0#64 ∧ ∀ c ∈ m, c.1 ≠ a) :
    Memory.read (Memory.insert m a v) b = if b = a then v else Memory.read m b := by
  induction m with
  | nil => by_cases hb : b = a <;> simp [Memory.insert, Memory.read, hb, eq_comm (a := a)]
  | cons c rest ih =>
    obtain ⟨k, x⟩ := c
    have hk : k ≠ a := h.2 (k, x) (by simp)
    by_cases hak : a < k
    · by_cases hb : b = a
      · simp [Memory.insert, hak, Memory.read, hb]
      · simp [Memory.insert, hak, Memory.read, hb, Ne.symm hb]
    · have hr : Memory.read rest a = 0#64 ∧ ∀ c ∈ rest, c.1 ≠ a :=
        ⟨by simpa [Memory.read, hk] using h.1, fun c hc => h.2 c (by simp [hc])⟩
      simp only [Memory.insert, if_neg hak, Memory.read, ih hr]
      by_cases hb : k = b
      · subst hb; simp [hk]
      · simp [hb]

theorem Memory.erase_absent (m : Memory) (a : Nat) : ∀ c ∈ Memory.erase m a, c.1 ≠ a := by
  induction m with
  | nil => simp [Memory.erase]
  | cons c rest ih =>
    obtain ⟨k, x⟩ := c
    by_cases hk : k = a
    · simpa [Memory.erase, hk] using ih
    · simp only [Memory.erase, if_neg hk, List.mem_cons]
      rintro c (rfl | hc)
      · exact hk
      · exact ih c hc

/-- A write changes the cell written and no other (R54). -/
theorem Memory.read_write (m : Memory) (a : Nat) (v : Word) (b : Nat) :
    Memory.read (Memory.write m a v) b = if b = a then v else Memory.read m b := by
  by_cases hv : v = 0#64
  · simp [Memory.write, hv, Memory.read_erase]
  · simp only [Memory.write, if_neg hv]
    rw [Memory.read_insert _ _ _ _ ⟨by simp [Memory.read_erase], Memory.erase_absent m a⟩, Memory.read_erase]
    by_cases hb : b = a <;> simp [hb]

@[simp] theorem Memory.read_write_eq (m : Memory) (a : Nat) (v : Word) : Memory.read (Memory.write m a v) a = v := by
  simp [Memory.read_write]

theorem Memory.read_write_ne (m : Memory) {a b : Nat} (h : b ≠ a) (v : Word) :
    Memory.read (Memory.write m a v) b = Memory.read m b := by
  simp [Memory.read_write, h]

/-! The canonical form. -/

theorem Memory.wfFrom_mono {lo lo' : Nat} {m : Memory} (hle : lo' ≤ lo) (h : Memory.wfFrom lo m = true) :
    Memory.wfFrom lo' m = true := by
  cases m with
  | nil => rfl
  | cons c rest =>
    obtain ⟨k, x⟩ := c
    simp only [Memory.wfFrom, Bool.and_eq_true, decide_eq_true_eq] at h ⊢
    exact ⟨⟨by omega, h.1.2⟩, h.2⟩

theorem Memory.wfFrom_erase {lo : Nat} {m : Memory} (h : Memory.wfFrom lo m = true) (a : Nat) :
    Memory.wfFrom lo (Memory.erase m a) = true := by
  induction m generalizing lo with
  | nil => rfl
  | cons c rest ih =>
    obtain ⟨k, x⟩ := c
    simp only [Memory.wfFrom, Bool.and_eq_true, decide_eq_true_eq] at h
    by_cases hk : k = a
    · simpa [Memory.erase, hk] using Memory.wfFrom_mono (by omega) (ih h.2)
    · simp [Memory.erase, hk, Memory.wfFrom, h.1.1, h.1.2, ih h.2]

theorem Memory.wfFrom_insert {lo : Nat} {m : Memory} (h : Memory.wfFrom lo m = true) {a : Nat} (ha : lo ≤ a)
    (habs : ∀ c ∈ m, c.1 ≠ a) {v : Word} (hv : v ≠ 0#64) : Memory.wfFrom lo (Memory.insert m a v) = true := by
  induction m generalizing lo with
  | nil => simp [Memory.insert, Memory.wfFrom, ha, hv]
  | cons c rest ih =>
    obtain ⟨k, x⟩ := c
    simp only [Memory.wfFrom, Bool.and_eq_true, decide_eq_true_eq] at h
    have hk : k ≠ a := habs (k, x) (by simp)
    by_cases hak : a < k
    · simp only [Memory.insert, if_pos hak, Memory.wfFrom, Bool.and_eq_true, decide_eq_true_eq]
      exact ⟨⟨ha, hv⟩, ⟨by omega, h.1.2⟩, h.2⟩
    · simp only [Memory.insert, if_neg hak, Memory.wfFrom, Bool.and_eq_true, decide_eq_true_eq]
      exact ⟨h.1, ih h.2 (by omega) (fun c hc => habs c (by simp [hc]))⟩

/-- A write keeps the canonical form. -/
theorem Memory.wf_write {m : Memory} (h : Memory.wf m = true) (a : Nat) (v : Word) : Memory.wf (Memory.write m a v) = true := by
  by_cases hv : v = 0#64
  · simp only [Memory.write, if_pos hv]
    exact Memory.wfFrom_erase h a
  · simp only [Memory.write, if_neg hv]
    exact Memory.wfFrom_insert (Memory.wfFrom_erase h a) (Nat.zero_le _) (Memory.erase_absent m a) hv

theorem Memory.wfFrom_ofImage (base : Nat) (cells : List Word) : Memory.wfFrom base (Memory.ofImage base cells) = true := by
  induction cells generalizing base with
  | nil => rfl
  | cons v rest ih =>
    by_cases hv : v = 0#64
    · simpa [Memory.ofImage, hv] using Memory.wfFrom_mono (Nat.le_succ base) (ih (base + 1))
    · simp [Memory.ofImage, hv, Memory.wfFrom, ih (base + 1)]

/-- A loaded image is in canonical form. -/
theorem Memory.wf_ofImage (cells : List Word) : Memory.wf (Memory.ofImage 0 cells) = true := Memory.wfFrom_ofImage 0 cells

/-- The machine's memory after reset is in canonical form. -/
theorem Memory.wf_reset : Memory.wf State.reset.core.mem = true := rfl

/-! Where cells are listed. -/

theorem Memory.mem_erase {m : Memory} {a : Nat} {c : Nat × Word} (h : c ∈ Memory.erase m a) : c ∈ m := by
  induction m with
  | nil => simp [Memory.erase] at h
  | cons d rest ih =>
    obtain ⟨k, x⟩ := d
    by_cases hk : k = a
    · simp only [Memory.erase, hk, if_true] at h
      exact List.mem_cons_of_mem _ (ih h)
    · simp only [Memory.erase, if_neg hk, List.mem_cons] at h
      rcases h with rfl | h
      · simp
      · exact List.mem_cons_of_mem _ (ih h)

theorem Memory.mem_insert {m : Memory} {a : Nat} {v : Word} {c : Nat × Word} (h : c ∈ Memory.insert m a v) :
    c = (a, v) ∨ c ∈ m := by
  induction m with
  | nil => simpa [Memory.insert] using h
  | cons d rest ih =>
    obtain ⟨k, x⟩ := d
    by_cases hak : a < k
    · simpa [Memory.insert, hak] using h
    · simp only [Memory.insert, if_neg hak, List.mem_cons] at h
      rcases h with rfl | h
      · simp
      · rcases ih h with h | h
        · exact .inl h
        · exact .inr (List.mem_cons_of_mem _ h)

/-- A write lists no address but its own. -/
theorem Memory.below_write {m : Memory} {n n' : Nat} (h : Memory.below n m = true) (hn : n ≤ n') {a : Nat} (ha : a < n')
    (v : Word) : Memory.below n' (Memory.write m a v) = true := by
  simp only [Memory.below, List.all_eq_true, decide_eq_true_eq] at h ⊢
  intro c hc
  by_cases hv : v = 0#64
  · simp only [Memory.write, if_pos hv] at hc
    have := h c (Memory.mem_erase hc)
    omega
  · simp only [Memory.write, if_neg hv] at hc
    rcases Memory.mem_insert hc with rfl | hc
    · exact ha
    · have := h c (Memory.mem_erase hc)
      omega

theorem Memory.below_mono {m : Memory} {n n' : Nat} (h : Memory.below n m = true) (hn : n ≤ n') : Memory.below n' m = true := by
  simp only [Memory.below, List.all_eq_true, decide_eq_true_eq] at h ⊢
  intro c hc
  have := h c hc
  omega

theorem Memory.below_ofImage (base : Nat) (cells : List Word) :
    Memory.below (base + cells.length) (Memory.ofImage base cells) = true := by
  induction cells generalizing base with
  | nil => rfl
  | cons v rest ih =>
    have h := ih (base + 1)
    have e : base + (v :: rest).length = base + 1 + rest.length := by simp; omega
    rw [e]
    by_cases hv : v = 0#64
    · simpa [Memory.ofImage, hv] using h
    · simp only [Memory.ofImage, if_neg hv, Memory.below, List.all_cons, Bool.and_eq_true, decide_eq_true_eq]
      exact ⟨by omega, h⟩

/-- Cells at or beyond `MLEN` read 0 (R30). -/
theorem Memory.read_of_below {m : Memory} {n a : Nat} (h : Memory.below n m = true) (ha : n ≤ a) : Memory.read m a = 0#64 := by
  induction m with
  | nil => rfl
  | cons c rest ih =>
    obtain ⟨k, x⟩ := c
    simp only [Memory.below, List.all_cons, Bool.and_eq_true, decide_eq_true_eq] at h
    have hk : k ≠ a := by omega
    simp only [Memory.read, if_neg hk]
    exact ih h.2

/-! The image (R59, R220). -/

theorem Memory.read_ofImage_below (base : Nat) (cells : List Word) {a : Nat} (h : a < base) :
    Memory.read (Memory.ofImage base cells) a = 0#64 := by
  induction cells generalizing base with
  | nil => rfl
  | cons v rest ih =>
    by_cases hv : v = 0#64
    · simpa [Memory.ofImage, hv] using ih (base + 1) (by omega)
    · have hk : base ≠ a := by omega
      simp only [Memory.ofImage, if_neg hv, Memory.read, if_neg hk]
      exact ih (base + 1) (by omega)

/-- Cell `i` of an image is read at `base + i`, and 0 beyond it. -/
theorem Memory.read_ofImage (base : Nat) (cells : List Word) (i : Nat) :
    Memory.read (Memory.ofImage base cells) (base + i) = cells.getD i 0#64 := by
  induction cells generalizing base i with
  | nil => simp [Memory.ofImage]
  | cons v rest ih =>
    cases i with
    | zero =>
      by_cases hv : v = 0#64
      · simp [Memory.ofImage, hv, Memory.read_ofImage_below]
      · simp [Memory.ofImage, hv, Memory.read]
    | succ i =>
      have e : base + (i + 1) = base + 1 + i := by omega
      rw [e]
      by_cases hv : v = 0#64
      · simpa [Memory.ofImage, hv] using ih (base + 1) i
      · have hk : base ≠ base + 1 + i := by omega
        simp only [Memory.ofImage, if_neg hv, Memory.read, if_neg hk]
        simpa using ih (base + 1) i

end Sys2Proof.Machine
end

