-- ==== Sys2Proof/Laws/Ops.lean ====
section
/-! SUPPORT. One lemma per shared operation, saying once everything it can do; later proofs cite these and do not unfold. -/

namespace Sys2Proof.Machine

/-! `MLEN` (spec/20_memory.md R53). -/

@[simp] theorem extend_nil (m : Nat) : extend m [] = m := rfl

@[simp] theorem extend_cons (m a : Nat) (l : List Nat) : extend m (a :: l) = max (extend m l) (a + 1) := rfl

theorem le_extend (m : Nat) (l : List Nat) : m ≤ extend m l := by
  induction l with
  | nil => simp
  | cons a l ih => simp; omega

theorem lt_extend {m a : Nat} {l : List Nat} (h : a ∈ l) : a < extend m l := by
  induction l with
  | nil => simp at h
  | cons b l ih =>
    rcases List.mem_cons.mp h with rfl | h
    · simp
    · have := ih h
      simp; omega

theorem extend_cases (m : Nat) (l : List Nat) : extend m l = m ∨ ∃ a ∈ l, extend m l = a + 1 := by
  induction l with
  | nil => simp
  | cons b l ih =>
    rcases Nat.le_total (extend m l) (b + 1) with h | h
    · exact .inr ⟨b, by simp, by simp [h]⟩
    · rw [extend_cons, Nat.max_eq_left h]
      rcases ih with e | ⟨a, ha, e⟩
      · exact .inl e
      · exact .inr ⟨a, by simp [ha], e⟩

/-- `extend` is the growth R53 describes. -/
theorem grownOver_extend (m : Nat) (l : List Nat) : grownOver m (extend m l) l :=
  ⟨le_extend m l, fun _ h => lt_extend h, extend_cases m l⟩

theorem extend_le {m n : Nat} {l : List Nat} (hm : m ≤ n) (hl : ∀ a ∈ l, a < n) : extend m l ≤ n := by
  rcases extend_cases m l with e | ⟨a, ha, e⟩
  · omega
  · have := hl a ha
    omega

/-! Addresses and operands (spec/20_memory.md R51, spec/30_encoding.md R80, R81). -/

theorem checkAddr_of_valid {p : Params} {a : Int} (h : validAddr p a) : checkAddr p a = .ok a.toNat := by
  have h1 : ¬ a < 0 := by have := h.1; omega
  have h2 : ¬ (p.memCapacity : Int) ≤ a := by have := h.2; omega
  simp [checkAddr, h1, h2]

/-- The fault of an address that does not exist. -/
def addrTrap (a : Int) : Trap := ⟨if a < 0 then .negativeAddress else .capacity, a⟩

theorem checkAddr_of_invalid {p : Params} {a : Int} (h : ¬ validAddr p a) : checkAddr p a = .error (addrTrap a) := by
  by_cases h1 : a < 0
  · simp [checkAddr, addrTrap, h1]
  · have h2 : (p.memCapacity : Int) ≤ a := by
      by_contra hc
      exact h ⟨by omega, by omega⟩
    simp [checkAddr, addrTrap, h1, h2]

theorem checkAddr_nat {p : Params} {k : Nat} (h : k < p.memCapacity) : checkAddr p (k : Int) = .ok k := by
  rw [checkAddr_of_valid ⟨by omega, by omega⟩]
  rfl

@[simp] theorem addrTrap_addr (a : Int) : (addrTrap a).addr = a := rfl

@[simp] theorem addrTrap_recordsAddr (a : Int) : (addrTrap a).cause.recordsAddr = true := by
  unfold addrTrap
  split <;> rfl

theorem addrTrap_cause_ne_none (a : Int) : (addrTrap a).cause ≠ .none := by
  unfold addrTrap
  split <;> simp

/-- A readable slot gives its value (R80). -/
theorem readOperand_of_readable {s : State} {p : Param} (h : s.readable p) :
    readOperand s p = .ok ⟨s.operandValue p, s.slotTouched p⟩ := by
  obtain ⟨mode, raw⟩ := p
  cases mode with
  | immediate => rfl
  | position =>
    have hv : validAddr s.params (effAddr s.core ⟨.position, raw⟩) := by simpa [State.readable] using h
    simp only [readOperand, loadOperand, checkAddr_of_valid hv]
    rfl
  | relative =>
    have hv : validAddr s.params (effAddr s.core ⟨.relative, raw⟩) := by simpa [State.readable] using h
    simp only [readOperand, loadOperand, checkAddr_of_valid hv]
    rfl

/-- A slot that is not readable gives the fault of its address. -/
theorem readOperand_of_not_readable {s : State} {p : Param} (h : ¬ s.readable p) :
    readOperand s p = .error (addrTrap (effAddr s.core p)) := by
  obtain ⟨mode, raw⟩ := p
  cases mode with
  | immediate => simp [State.readable] at h
  | position =>
    have hv : ¬ validAddr s.params (effAddr s.core ⟨.position, raw⟩) := fun hv => h (.inr hv)
    simp only [readOperand, loadOperand, checkAddr_of_invalid hv]
  | relative =>
    have hv : ¬ validAddr s.params (effAddr s.core ⟨.relative, raw⟩) := fun hv => h (.inr hv)
    simp only [readOperand, loadOperand, checkAddr_of_invalid hv]

/-- A targetable slot gives its address (R81). -/
theorem writeTarget_of_targetable {s : State} {p : Param} (h : s.targetable p) : writeTarget s p = .ok (s.slotAddr p) := by
  obtain ⟨mode, raw⟩ := p
  cases mode with
  | immediate => exact absurd rfl h.1
  | position => simp [writeTarget, checkAddr_of_valid h.2, State.slotAddr]
  | relative => simp [writeTarget, checkAddr_of_valid h.2, State.slotAddr]

/-- A slot that is not targetable gives a fault: of its form if it is Immediate (R79), else of its address. -/
theorem writeTarget_of_not_targetable {s : State} {p : Param} (h : ¬ s.targetable p) :
    writeTarget s p = .error (if p.mode = .immediate then ⟨.immediateWrite, 0⟩ else addrTrap (effAddr s.core p)) := by
  obtain ⟨mode, raw⟩ := p
  cases mode with
  | immediate => rfl
  | position =>
    have hv : ¬ validAddr s.params (effAddr s.core ⟨.position, raw⟩) := fun hv => h ⟨by simp, hv⟩
    simp [writeTarget, checkAddr_of_invalid hv]
  | relative =>
    have hv : ¬ validAddr s.params (effAddr s.core ⟨.relative, raw⟩) := fun hv => h ⟨by simp, hv⟩
    simp [writeTarget, checkAddr_of_invalid hv]

theorem slotAddr_lt_of_targetable {s : State} {p : Param} (h : s.targetable p) : s.slotAddr p < s.params.memCapacity := by
  have := h.2.1
  have := h.2.2
  simp only [State.slotAddr]
  omega

/-- Every address a readable slot touches exists. -/
theorem slotTouched_lt_of_readable {s : State} {p : Param} (h : s.readable p) {a : Nat} (ha : a ∈ s.slotTouched p) :
    a < s.params.memCapacity := by
  obtain ⟨mode, raw⟩ := p
  cases mode with
  | immediate => simp [State.slotTouched] at ha
  | position =>
    have hv : validAddr s.params (effAddr s.core ⟨.position, raw⟩) := by simpa [State.readable] using h
    have := hv.1
    have := hv.2
    simp only [State.slotTouched, State.slotAddr, List.mem_singleton] at ha
    omega
  | relative =>
    have hv : validAddr s.params (effAddr s.core ⟨.relative, raw⟩) := by simpa [State.readable] using h
    have := hv.1
    have := hv.2
    simp only [State.slotTouched, State.slotAddr, List.mem_singleton] at ha
    omega

/-! Results (spec/41_arithmetic.md R122). -/

theorem fitsWord_iff (x : Int) : fitsWord x = true ↔ -(2 ^ 63) ≤ x ∧ x < 2 ^ 63 := by
  simp [fitsWord]

/-- `wrap64` gives the `int64` congruent to its argument (R8). -/
theorem wrap64_congruent (x : Int) : congruent64 (wrap64 x) x := by
  unfold congruent64 wrap64
  rw [BitVec.toInt_ofInt, Int.bmod_def]
  split <;> omega

/-- An integer in `int64` is kept. -/
theorem toInt_wrap64 {x : Int} (h : fitsWord x = true) : (wrap64 x).toInt = x := by
  have := (fitsWord_iff x).mp h
  unfold wrap64
  rw [BitVec.toInt_ofInt, Int.bmod_def]
  split <;> omega

theorem narrow_of_noOverflow {s : State} {x : Int} (h : s.noOverflow x) : narrow s.params x = .ok (wrap64 x) := by
  unfold narrow
  split
  · rfl
  · rename_i hf
    rcases h with h | h
    · exact absurd ((fitsWord_iff x).mpr h) hf
    · simp [h]

theorem narrow_of_overflow {s : State} {x : Int} (h : ¬ s.noOverflow x) : narrow s.params x = .error ⟨.overflow, 0⟩ := by
  have hf : ¬ fitsWord x = true := fun hf => h (.inl ((fitsWord_iff x).mp hf))
  have hm : s.params.overflowMode = .fault := by
    cases hm : s.params.overflowMode with
    | wrap => exact absurd (.inr hm) h
    | fault => rfl
  simp [narrow, hf, hm]

/-! Faults (spec/60_exceptions.md R170). -/

/-- Taking a fault is the fault R170 describes. -/
theorem faultsWith_recordFault (s : State) (e : Trap) :
    faultsWith s e.cause (if e.cause.recordsAddr then e.addr else 0) (.next (s.recordFault e)) :=
  ⟨s.recordFault e, by simp [sameQueues, sameOutside]⟩

theorem finish_ok (s t : State) : finish s (.ok t) = .next t := rfl

theorem finish_error (s : State) (e : Trap) : finish s (.error e) = .next (s.recordFault e) := rfl

end Sys2Proof.Machine
end

