-- ==== Sys2Proof/Laws/Exec.lean ====
section
/-! SUPPORT. What the shape each family shares can do, said once: for every outcome of an execution, the conditions it needs and the state
it leaves. The meanings' equations on operands that resolve stand beside them. -/

namespace Sys2Proof.Machine

theorem readTwo_of_readable {s : State} {a b : Param} (ha : s.readable a) (hb : s.readable b) :
    readTwo s a b = .ok (⟨s.operandValue a, s.slotTouched a⟩, ⟨s.operandValue b, s.slotTouched b⟩) := by
  simp [readTwo, readOperand_of_readable ha, readOperand_of_readable hb]

/-- The first slot that is not readable decides the fault (spec/40_cycle.md R104, R106). -/
theorem readTwo_of_not_readable {s : State} {a b : Param} (h : ¬ (s.readable a ∧ s.readable b)) :
    readTwo s a b = .error (addrTrap (effAddr s.core (if s.readable a then b else a))) := by
  by_cases ha : s.readable a
  · have hb : ¬ s.readable b := fun hb => h ⟨ha, hb⟩
    simp only [readTwo, readOperand_of_readable ha, readOperand_of_not_readable hb, if_pos ha]
  · simp only [readTwo, readOperand_of_not_readable ha, if_neg ha]

/-- The fault is that of one of the slots: the slot is not Immediate, and its address does not exist. -/
def State.slotTrap (s : State) (slots : List Param) (e : Trap) : Prop :=
  ∃ p ∈ slots, p.mode ≠ .immediate ∧ ¬ validAddr s.params (effAddr s.core p) ∧ e = addrTrap (effAddr s.core p)

/-- A slot that is not readable gives the fault of its address. -/
theorem slotTrap_of_not_readable {s : State} {p : Param} {slots : List Param} (hp : p ∈ slots) (h : ¬ s.readable p) :
    s.slotTrap slots (addrTrap (effAddr s.core p)) :=
  ⟨p, hp, fun hm => h (.inl hm), fun hv => h (.inr hv), rfl⟩

/-- Of two read slots that are not both readable, the first that is not gives the fault. -/
theorem slotTrap_of_not_both {s : State} {a b : Param} {slots : List Param} (ha : a ∈ slots) (hb : b ∈ slots)
    (h : ¬ (s.readable a ∧ s.readable b)) :
    s.slotTrap slots (addrTrap (effAddr s.core (if s.readable a then b else a))) := by
  by_cases hr : s.readable a
  · rw [if_pos hr]
    exact slotTrap_of_not_readable hb (fun hb => h ⟨hr, hb⟩)
  · rw [if_neg hr]
    exact slotTrap_of_not_readable ha hr

/-- A slot that is not targetable gives the fault of its address, or of its form, which records no address. -/
theorem slotTrap_of_not_targetable {s : State} {t : Param} {slots : List Param} (ht : t ∈ slots) (h : ¬ s.targetable t) :
    s.slotTrap slots (if t.mode = .immediate then ⟨.immediateWrite, 0⟩ else addrTrap (effAddr s.core t)) ∨
      (if t.mode = .immediate then (⟨.immediateWrite, 0⟩ : Trap) else addrTrap (effAddr s.core t)).cause.recordsAddr = false := by
  by_cases hm : t.mode = .immediate
  · rw [if_pos hm]
    exact .inr rfl
  · rw [if_neg hm]
    exact .inl ⟨t, ht, hm, fun hv => h ⟨hm, hv⟩, rfl⟩

/-! Format F3: ADD, MUL, LT, EQ. -/

/-- The state after an F3 instruction that stores `v`. -/
def afterBinary (s : State) (a b t : Param) (v : Word) : State :=
  (s.commit 4 (s.slotTouched a ++ s.slotTouched b ++ [s.slotAddr t]) (s.core.pc + 4)).store (s.slotAddr t) v

theorem binaryToTarget_ok {f : Word → Word → Except Trap Word} {a b t : Param} {s : State} {v : Word} (ha : s.readable a)
    (hb : s.readable b) (ht : s.targetable t) (hf : f (s.operandValue a) (s.operandValue b) = .ok v) :
    binaryToTarget f a b t s = .next (afterBinary s a b t v) := by
  simp only [binaryToTarget, readTwo_of_readable ha hb, writeTarget_of_targetable ht, hf, finish_ok]
  rfl

theorem binaryToTarget_fault {f : Word → Word → Except Trap Word} {a b t : Param} {s : State} {e : Trap} (ha : s.readable a)
    (hb : s.readable b) (ht : s.targetable t) (hf : f (s.operandValue a) (s.operandValue b) = .error e) :
    binaryToTarget f a b t s = .next (s.recordFault e) := by
  simp only [binaryToTarget, readTwo_of_readable ha hb, writeTarget_of_targetable ht, hf, finish_error]

theorem binaryToTarget_bad_target {f : Word → Word → Except Trap Word} {a b t : Param} {s : State} (ha : s.readable a)
    (hb : s.readable b) (ht : ¬ s.targetable t) :
    binaryToTarget f a b t s =
      .next (s.recordFault (if t.mode = .immediate then ⟨.immediateWrite, 0⟩ else addrTrap (effAddr s.core t))) := by
  simp only [binaryToTarget, readTwo_of_readable ha hb, writeTarget_of_not_targetable ht, finish_error]

theorem binaryToTarget_bad_read {f : Word → Word → Except Trap Word} {a b t : Param} {s : State}
    (h : ¬ (s.readable a ∧ s.readable b)) :
    binaryToTarget f a b t s = .next (s.recordFault (addrTrap (effAddr s.core (if s.readable a then b else a)))) := by
  simp only [binaryToTarget, readTwo_of_not_readable h, finish_error]

theorem immediateTrap_cause_ne_none (s : State) (t : Param) :
    (if t.mode = .immediate then (⟨.immediateWrite, 0⟩ : Trap) else addrTrap (effAddr s.core t)).cause ≠ .none := by
  split
  · simp
  · exact addrTrap_cause_ne_none _

/-- Everything an F3 instruction can do: it stores its result, or it faults and only the fault is recorded. -/
theorem binaryToTarget_cases (f : Word → Word → Except Trap Word) (a b t : Param) (s : State)
    (hf : ∀ x y e, f x y = .error e → e.cause ≠ .none ∧ e.cause.recordsAddr = false) :
    (∃ v, s.readable a ∧ s.readable b ∧ s.targetable t ∧ f (s.operandValue a) (s.operandValue b) = .ok v ∧
      binaryToTarget f a b t s = .next (afterBinary s a b t v)) ∨
    (∃ e : Trap, e.cause ≠ .none ∧ (s.slotTrap [a, b, t] e ∨ e.cause.recordsAddr = false) ∧
      binaryToTarget f a b t s = .next (s.recordFault e)) := by
  by_cases h : s.readable a ∧ s.readable b
  · by_cases ht : s.targetable t
    · cases hv : f (s.operandValue a) (s.operandValue b) with
      | ok v => exact .inl ⟨v, h.1, h.2, ht, rfl, binaryToTarget_ok h.1 h.2 ht hv⟩
      | error e => exact .inr ⟨e, (hf _ _ _ hv).1, .inr (hf _ _ _ hv).2, binaryToTarget_fault h.1 h.2 ht hv⟩
    · exact .inr ⟨_, immediateTrap_cause_ne_none s t, slotTrap_of_not_targetable (by simp) ht,
        binaryToTarget_bad_target h.1 h.2 ht⟩
  · exact .inr ⟨_, addrTrap_cause_ne_none _, .inl (slotTrap_of_not_both (by simp) (by simp) h), binaryToTarget_bad_read h⟩

/-- Narrowing raises `OVERFLOW` and nothing else (R122). -/
theorem narrow_error_cause {p : Params} {x : Int} {e : Trap} (h : narrow p x = .error e) :
    e.cause ≠ .none ∧ e.cause.recordsAddr = false := by
  unfold narrow at h
  split at h
  · simp at h
  · split at h
    · simp at h
    · cases h
      exact ⟨by simp, rfl⟩

/-! The jumps. -/

/-- The state after a jump instruction whose next `PC` is `next`. -/
def afterJump (s : State) (a b : Param) (next : Nat) : State := s.commit 3 (s.slotTouched a ++ s.slotTouched b) next

theorem jumpIf_taken {taken : Word → Bool} {a b : Param} {s : State} (ha : s.readable a) (hb : s.readable b)
    (ht : taken (s.operandValue a) = true) (hn : 0 ≤ (s.operandValue b).toInt) :
    jumpIf taken a b s = .next (afterJump s a b (s.operandValue b).toNat) := by
  have h : ¬ (s.operandValue b).toInt < 0 := by omega
  simp [jumpIf, readTwo_of_readable ha hb, ht, h, finish_ok, afterJump]

theorem jumpIf_negative {taken : Word → Bool} {a b : Param} {s : State} (ha : s.readable a) (hb : s.readable b)
    (ht : taken (s.operandValue a) = true) (hn : (s.operandValue b).toInt < 0) :
    jumpIf taken a b s = .next (s.recordFault ⟨.jumpTargetNegative, (s.operandValue b).toInt⟩) := by
  simp [jumpIf, readTwo_of_readable ha hb, ht, hn, finish_error]

theorem jumpIf_untaken {taken : Word → Bool} {a b : Param} {s : State} (ha : s.readable a) (hb : s.readable b)
    (ht : taken (s.operandValue a) = false) :
    jumpIf taken a b s = .next (afterJump s a b (s.core.pc + 3)) := by
  simp [jumpIf, readTwo_of_readable ha hb, ht, finish_ok, afterJump]

theorem jumpIf_bad_read {taken : Word → Bool} {a b : Param} {s : State} (h : ¬ (s.readable a ∧ s.readable b)) :
    jumpIf taken a b s = .next (s.recordFault (addrTrap (effAddr s.core (if s.readable a then b else a)))) := by
  simp only [jumpIf, readTwo_of_not_readable h, finish_error]

/-- Everything a jump can do: go to its target, fall through, or fault. -/
theorem jumpIf_cases (taken : Word → Bool) (a b : Param) (s : State) :
    (s.readable a ∧ s.readable b ∧ taken (s.operandValue a) = true ∧ 0 ≤ (s.operandValue b).toInt ∧
      jumpIf taken a b s = .next (afterJump s a b (s.operandValue b).toNat)) ∨
    (s.readable a ∧ s.readable b ∧ taken (s.operandValue a) = false ∧
      jumpIf taken a b s = .next (afterJump s a b (s.core.pc + 3))) ∨
    (∃ e : Trap, e.cause ≠ .none ∧
      (s.slotTrap [a, b] e ∨
        e.cause = .jumpTargetNegative ∧ e.addr < 0 ∧ taken (s.operandValue a) = true ∧ (s.operandValue b).toInt = e.addr) ∧
      jumpIf taken a b s = .next (s.recordFault e)) := by
  by_cases h : s.readable a ∧ s.readable b
  · cases ht : taken (s.operandValue a) with
    | false => exact .inr (.inl ⟨h.1, h.2, rfl, jumpIf_untaken h.1 h.2 ht⟩)
    | true =>
      rcases Int.lt_or_le (s.operandValue b).toInt 0 with hn | hn
      · exact .inr (.inr ⟨_, by simp, .inr ⟨rfl, hn, rfl, rfl⟩, jumpIf_negative h.1 h.2 ht hn⟩)
      · exact .inl ⟨h.1, h.2, rfl, hn, jumpIf_taken h.1 h.2 ht hn⟩
  · exact .inr (.inr ⟨_, addrTrap_cause_ne_none _, .inl (slotTrap_of_not_both (by simp) (by simp) h), jumpIf_bad_read h⟩)

/-- A non-negative word read as a natural number is its value. -/
theorem toNat_of_nonneg {v : Word} (h : 0 ≤ v.toInt) : (v.toNat : Int) = v.toInt := by
  have h1 := BitVec.toInt_eq_toNat_cond v
  have h2 := v.isLt
  split at h1 <;> omega

/-! IN and OUT. -/

/-- The state after an IN of value `v` that leaves the tokens `rest`. -/
def afterIn (s : State) (t : Param) (v : Word) (rest : List Token) : State :=
  { (s.commit 2 [s.slotAddr t] (s.core.pc + 2)).store (s.slotAddr t) v with inq := rest }

/-- Everything IN can do: pop a value, stall, or fault. -/
theorem execIn_cases (t : Param) (s : State) :
    (∃ v rest, s.targetable t ∧ s.inq = .val v :: rest ∧ execIn t s = .next (afterIn s t v rest)) ∨
    (s.targetable t ∧ s.inq = [] ∧ s.inEos = false ∧ execIn t s = .next s) ∨
    (∃ e : Trap, e.cause ≠ .none ∧ (s.slotTrap [t] e ∨ e.cause.recordsAddr = false) ∧
      execIn t s = .next (s.recordFault e)) := by
  by_cases ht : s.targetable t
  · cases hq : s.inq with
    | nil =>
      cases he : s.inEos with
      | false =>
        exact .inr (.inl ⟨ht, rfl, rfl, by simp [execIn, writeTarget_of_targetable ht, hq, he, finish_ok]⟩)
      | true =>
        exact .inr (.inr ⟨⟨.inputEnd, 0⟩, by simp, .inr rfl, by simp [execIn, writeTarget_of_targetable ht, hq, he, finish_error]⟩)
    | cons tok rest =>
      cases tok with
      | val v =>
        exact .inl ⟨v, rest, ht, rfl, by simp [execIn, writeTarget_of_targetable ht, hq, finish_ok, afterIn]⟩
      | malformed =>
        exact .inr (.inr ⟨⟨.inputFormat, 0⟩, by simp, .inr rfl, by simp [execIn, writeTarget_of_targetable ht, hq, finish_error]⟩)
  · refine .inr (.inr ⟨_, immediateTrap_cause_ne_none s t, slotTrap_of_not_targetable (by simp) ht, ?_⟩)
    simp only [execIn, writeTarget_of_not_targetable ht, finish_error]

/-- The state after an OUT. -/
def afterOut (s : State) (a : Param) : State :=
  { s.commit 2 (s.slotTouched a) (s.core.pc + 2) with outq := s.outq ++ [s.operandValue a] }

/-- Everything OUT can do: push its value, stall, or fault. -/
theorem execOut_cases (a : Param) (s : State) :
    (s.readable a ∧ queueFull s.params s.outq.length = false ∧ execOut a s = .next (afterOut s a)) ∨
    (s.readable a ∧ queueFull s.params s.outq.length = true ∧ execOut a s = .next s) ∨
    (∃ e : Trap, e.cause ≠ .none ∧ (s.slotTrap [a] e ∨ e.cause.recordsAddr = false) ∧
      execOut a s = .next (s.recordFault e)) := by
  by_cases ha : s.readable a
  · cases hq : queueFull s.params s.outq.length with
    | false => exact .inl ⟨ha, rfl, by simp [execOut, readOperand_of_readable ha, hq, finish_ok, afterOut, push]⟩
    | true => exact .inr (.inl ⟨ha, rfl, by simp [execOut, readOperand_of_readable ha, hq, finish_ok]⟩)
  · refine .inr (.inr ⟨_, addrTrap_cause_ne_none (effAddr s.core a), .inl (slotTrap_of_not_readable (by simp) ha), ?_⟩)
    simp only [execOut, readOperand_of_not_readable ha, finish_error]

theorem queueFull_iff (p : Params) (n : Nat) : queueFull p n = true ↔ p.queueDepth = some n := by
  unfold queueFull
  cases p.queueDepth with
  | none => simp
  | some d => simp [eq_comm]

/-! ARB and HALT. -/

/-- The state after an ARB that leaves the relative base `r`. -/
def afterArb (s : State) (a : Param) (r : Word) : State :=
  let t := s.commit 2 (s.slotTouched a) (s.core.pc + 2)
  { t with core := { t.core with rb := r } }

/-- Everything ARB can do: adjust the relative base, or fault. -/
theorem execArb_cases (a : Param) (s : State) :
    (∃ r, s.readable a ∧ narrow s.params (s.core.rb.toInt + (s.operandValue a).toInt) = .ok r ∧
      execArb a s = .next (afterArb s a r)) ∨
    (∃ e : Trap, e.cause ≠ .none ∧ (s.slotTrap [a] e ∨ e.cause.recordsAddr = false) ∧
      execArb a s = .next (s.recordFault e)) := by
  by_cases ha : s.readable a
  · cases hr : narrow s.params (s.core.rb.toInt + (s.operandValue a).toInt) with
    | ok r =>
      refine .inl ⟨r, ha, rfl, ?_⟩
      simp only [execArb, readOperand_of_readable ha, hr, finish_ok]
      rfl
    | error e =>
      refine .inr ⟨e, (narrow_error_cause hr).1, .inr (narrow_error_cause hr).2, ?_⟩
      simp only [execArb, readOperand_of_readable ha, hr, finish_error]
  · refine .inr ⟨_, addrTrap_cause_ne_none (effAddr s.core a), .inl (slotTrap_of_not_readable (by simp) ha), ?_⟩
    simp only [execArb, readOperand_of_not_readable ha, finish_error]

/-- The state after HALT. -/
def afterHalt (s : State) : State :=
  let t := s.commit 1 [] (s.core.pc + 1)
  { t with core := { t.core with status := .halted } }

theorem execHalt_eq (s : State) : execHalt s = .next (afterHalt s) := rfl

/-! Each constructor's execution by the shape it shares. -/

theorem exec_add (a b t : Param) (s : State) :
    exec (.add a b t) s = binaryToTarget (fun x y => narrow s.params (x.toInt + y.toInt)) a b t s := rfl

theorem exec_mul (a b t : Param) (s : State) :
    exec (.mul a b t) s = binaryToTarget (fun x y => narrow s.params (x.toInt * y.toInt)) a b t s := rfl

theorem exec_lt (a b t : Param) (s : State) :
    exec (.lt a b t) s = binaryToTarget (fun x y => .ok (boolWord (decide (x.toInt < y.toInt)))) a b t s := rfl

theorem exec_eq (a b t : Param) (s : State) :
    exec (.eq a b t) s = binaryToTarget (fun x y => .ok (boolWord (decide (x.toInt = y.toInt)))) a b t s := rfl

theorem exec_jt (a b : Param) (s : State) : exec (.jt a b) s = jumpIf (fun x => decide (x ≠ 0#64)) a b s := rfl

theorem exec_jf (a b : Param) (s : State) : exec (.jf a b) s = jumpIf (fun x => decide (x = 0#64)) a b s := rfl

/-! What the states left have in common (spec/40_cycle.md R110). -/

theorem commits_commit (s : State) (len : Nat) (touched : List Nat) (next : Nat) :
    commits s (s.commit len touched next) len touched next := by
  simp only [commits, State.commit_core_mlen]
  exact ⟨rfl, grownOver_extend _ _, by simp [sameControl], by simp [sameOutside]⟩

theorem commits_afterBinary (s : State) (a b t : Param) (v : Word) :
    commits s (afterBinary s a b t v) 4 (s.slotTouched a ++ s.slotTouched b ++ [s.slotAddr t]) (s.core.pc + 4) :=
  commits_commit s 4 _ _

theorem commits_afterJump (s : State) (a b : Param) (next : Nat) :
    commits s (afterJump s a b next) 3 (s.slotTouched a ++ s.slotTouched b) next := commits_commit s 3 _ _

theorem commits_afterIn (s : State) (t : Param) (v : Word) (rest : List Token) :
    commits s (afterIn s t v rest) 2 [s.slotAddr t] (s.core.pc + 2) := commits_commit s 2 _ _

theorem commits_afterOut (s : State) (a : Param) : commits s (afterOut s a) 2 (s.slotTouched a) (s.core.pc + 2) :=
  commits_commit s 2 _ _

theorem commits_afterArb (s : State) (a : Param) (r : Word) :
    commits s (afterArb s a r) 2 (s.slotTouched a) (s.core.pc + 2) := commits_commit s 2 _ _

theorem commits_afterHalt (s : State) : commits s (afterHalt s) 1 [] (s.core.pc + 1) := commits_commit s 1 _ _

/-- An F3 instruction writes its target and no other cell (R114). -/
theorem read_afterBinary (s : State) (a b t : Param) (v : Word) (k : Nat) :
    Memory.read (afterBinary s a b t v).core.mem k = if k = s.slotAddr t then v else Memory.read s.core.mem k :=
  Memory.read_write _ _ _ _

theorem read_afterIn (s : State) (t : Param) (v : Word) (rest : List Token) (k : Nat) :
    Memory.read (afterIn s t v rest).core.mem k = if k = s.slotAddr t then v else Memory.read s.core.mem k :=
  Memory.read_write _ _ _ _

/-! Everything an instruction can do. -/

/-- One line per way an instruction can end, each naming the state it leaves. -/
inductive Ends (s : State) : Instr → State → Prop where
  | add {a b t : Param} {v : Word} (ha : s.readable a) (hb : s.readable b) (ht : s.targetable t)
      (hv : narrow s.params ((s.operandValue a).toInt + (s.operandValue b).toInt) = .ok v) :
      Ends s (.add a b t) (afterBinary s a b t v)
  | mul {a b t : Param} {v : Word} (ha : s.readable a) (hb : s.readable b) (ht : s.targetable t)
      (hv : narrow s.params ((s.operandValue a).toInt * (s.operandValue b).toInt) = .ok v) :
      Ends s (.mul a b t) (afterBinary s a b t v)
  | lt {a b t : Param} (ha : s.readable a) (hb : s.readable b) (ht : s.targetable t) :
      Ends s (.lt a b t)
        (afterBinary s a b t (boolWord (decide ((s.operandValue a).toInt < (s.operandValue b).toInt))))
  | eq {a b t : Param} (ha : s.readable a) (hb : s.readable b) (ht : s.targetable t) :
      Ends s (.eq a b t)
        (afterBinary s a b t (boolWord (decide ((s.operandValue a).toInt = (s.operandValue b).toInt))))
  | inp {t : Param} {v : Word} {rest : List Token} (ht : s.targetable t) (hq : s.inq = .val v :: rest) :
      Ends s (.inp t) (afterIn s t v rest)
  | inWait {t : Param} (ht : s.targetable t) (hq : s.inq = []) (he : s.inEos = false) : Ends s (.inp t) s
  | out {a : Param} (ha : s.readable a) (hq : queueFull s.params s.outq.length = false) : Ends s (.out a) (afterOut s a)
  | outWait {a : Param} (ha : s.readable a) (hq : queueFull s.params s.outq.length = true) : Ends s (.out a) s
  | jtTaken {a b : Param} (ha : s.readable a) (hb : s.readable b) (hx : s.operandValue a ≠ 0#64)
      (hn : 0 ≤ (s.operandValue b).toInt) : Ends s (.jt a b) (afterJump s a b (s.operandValue b).toNat)
  | jtUntaken {a b : Param} (ha : s.readable a) (hb : s.readable b) (hx : s.operandValue a = 0#64) :
      Ends s (.jt a b) (afterJump s a b (s.core.pc + 3))
  | jfTaken {a b : Param} (ha : s.readable a) (hb : s.readable b) (hx : s.operandValue a = 0#64)
      (hn : 0 ≤ (s.operandValue b).toInt) : Ends s (.jf a b) (afterJump s a b (s.operandValue b).toNat)
  | jfUntaken {a b : Param} (ha : s.readable a) (hb : s.readable b) (hx : s.operandValue a ≠ 0#64) :
      Ends s (.jf a b) (afterJump s a b (s.core.pc + 3))
  | arb {a : Param} {r : Word} (ha : s.readable a)
      (hr : narrow s.params (s.core.rb.toInt + (s.operandValue a).toInt) = .ok r) : Ends s (.arb a) (afterArb s a r)
  | halt : Ends s .halt (afterHalt s)
  | fault {i : Instr} (e : Trap) (he : e.cause ≠ .none)
      (hn : s.slotTrap i.params e ∨ (e.cause = .jumpTargetNegative ∧ e.addr < 0 ∧ s.jumpTarget i = some e.addr) ∨
        e.cause.recordsAddr = false) : Ends s i (s.recordFault e)

/-- Every execution ends in one of those ways. -/
theorem exec_ends (i : Instr) (s : State) : ∃ t, exec i s = .next t ∧ Ends s i t := by
  cases i with
  | add a b t =>
    rcases binaryToTarget_cases (fun x y => narrow s.params (x.toInt + y.toInt)) a b t s
      (fun _ _ _ h => narrow_error_cause h) with ⟨v, ha, hb, ht, hv, h⟩ | ⟨e, he, hn, h⟩
    · exact ⟨_, h, .add ha hb ht hv⟩
    · exact ⟨_, h, .fault e he (hn.imp_right .inr)⟩
  | mul a b t =>
    rcases binaryToTarget_cases (fun x y => narrow s.params (x.toInt * y.toInt)) a b t s
      (fun _ _ _ h => narrow_error_cause h) with ⟨v, ha, hb, ht, hv, h⟩ | ⟨e, he, hn, h⟩
    · exact ⟨_, h, .mul ha hb ht hv⟩
    · exact ⟨_, h, .fault e he (hn.imp_right .inr)⟩
  | lt a b t =>
    rcases binaryToTarget_cases (fun x y => .ok (boolWord (decide (x.toInt < y.toInt)))) a b t s
      (fun _ _ _ h => by simp at h) with ⟨v, ha, hb, ht, hv, h⟩ | ⟨e, he, hn, h⟩
    · cases hv
      exact ⟨_, h, .lt ha hb ht⟩
    · exact ⟨_, h, .fault e he (hn.imp_right .inr)⟩
  | eq a b t =>
    rcases binaryToTarget_cases (fun x y => .ok (boolWord (decide (x.toInt = y.toInt)))) a b t s
      (fun _ _ _ h => by simp at h) with ⟨v, ha, hb, ht, hv, h⟩ | ⟨e, he, hn, h⟩
    · cases hv
      exact ⟨_, h, .eq ha hb ht⟩
    · exact ⟨_, h, .fault e he (hn.imp_right .inr)⟩
  | inp t =>
    rcases execIn_cases t s with ⟨v, rest, ht, hq, h⟩ | ⟨ht, hq, he, h⟩ | ⟨e, he, hn, h⟩
    · exact ⟨_, h, .inp ht hq⟩
    · exact ⟨_, h, .inWait ht hq he⟩
    · exact ⟨_, h, .fault e he (hn.imp_right .inr)⟩
  | out a =>
    rcases execOut_cases a s with ⟨ha, hq, h⟩ | ⟨ha, hq, h⟩ | ⟨e, he, hn, h⟩
    · exact ⟨_, h, .out ha hq⟩
    · exact ⟨_, h, .outWait ha hq⟩
    · exact ⟨_, h, .fault e he (hn.imp_right .inr)⟩
  | jt a b =>
    rcases jumpIf_cases (fun x => decide (x ≠ 0#64)) a b s with ⟨ha, hb, hx, hn, h⟩ | ⟨ha, hb, hx, h⟩ | ⟨e, he, hn, h⟩
    · exact ⟨_, h, .jtTaken ha hb (by simpa using hx) hn⟩
    · exact ⟨_, h, .jtUntaken ha hb (by simpa using hx)⟩
    · exact ⟨_, h, .fault e he (hn.imp_right fun ⟨h1, h2, h3, h4⟩ => .inl ⟨h1, h2, by simpa [State.jumpTarget, h4] using h3⟩)⟩
  | jf a b =>
    rcases jumpIf_cases (fun x => decide (x = 0#64)) a b s with ⟨ha, hb, hx, hn, h⟩ | ⟨ha, hb, hx, h⟩ | ⟨e, he, hn, h⟩
    · exact ⟨_, h, .jfTaken ha hb (by simpa using hx) hn⟩
    · exact ⟨_, h, .jfUntaken ha hb (by simpa using hx)⟩
    · exact ⟨_, h, .fault e he (hn.imp_right fun ⟨h1, h2, h3, h4⟩ => .inl ⟨h1, h2, by simpa [State.jumpTarget, h4] using h3⟩)⟩
  | arb a =>
    rcases execArb_cases a s with ⟨r, ha, hr, h⟩ | ⟨e, he, hn, h⟩
    · exact ⟨_, h, .arb ha hr⟩
    · exact ⟨_, h, .fault e he (hn.imp_right .inr)⟩
  | halt => exact ⟨_, execHalt_eq s, .halt⟩

/-- What a next state of `exec` is. -/
theorem exec_cases {i : Instr} {s t : State} (h : exec i s = .next t) : Ends s i t := by
  obtain ⟨t', h', e⟩ := exec_ends i s
  rw [h] at h'
  cases h'
  exact e

end Sys2Proof.Machine
end

