-- ==== Sys2Proof/Laws/Cycle.lean ====
section
/-! SUPPORT. What fetching and one step of a core can do, said once (spec/40_cycle.md R100-R107). -/

namespace Sys2Proof.Machine

theorem CoreRegs.enabled_iff (c : CoreRegs) : c.enabled = true ↔ c.status = .ready ∧ c.run = true := by
  simp [CoreRegs.enabled]

/-- Parameter cells `k` .. `k + n - 1` all exist, or the first that does not is named. -/
theorem checkCells_ok {p : Params} {pc : Nat} (n k : Nat) (h : ∀ j, j < n → pc + k + j < p.memCapacity) :
    checkCells p pc k n = .ok () := by
  induction n generalizing k with
  | zero => rfl
  | succ n ih =>
    have h0 : pc + k < p.memCapacity := by simpa using h 0 (by omega)
    simp only [checkCells, checkAddr_nat h0]
    exact ih (k + 1) (fun j hj => by have := h (j + 1) (by omega); omega)

theorem checkCells_inv {p : Params} {pc n k : Nat} (h : checkCells p pc k n = .ok ()) :
    ∀ j, j < n → pc + k + j < p.memCapacity := by
  induction n generalizing k with
  | zero => simp
  | succ n ih =>
    unfold checkCells at h
    split at h
    · simp at h
    · rename_i a ha
      have hv : validAddr p ((pc + k : Nat) : Int) := by
        by_contra hc
        rw [checkAddr_of_invalid hc] at ha
        simp at ha
      intro j hj
      cases j with
      | zero =>
        have := hv.2
        omega
      | succ j =>
        have := ih h j (by omega)
        omega

theorem checkCells_error {p : Params} {pc n k : Nat} {e : Trap} (h : checkCells p pc k n = .error e) :
    ∃ j, j < n ∧ p.memCapacity ≤ pc + k + j ∧ (∀ j', j' < j → pc + k + j' < p.memCapacity) ∧
      e = ⟨.capacity, ((pc + k + j : Nat) : Int)⟩ := by
  induction n generalizing k with
  | zero => simp [checkCells] at h
  | succ n ih =>
    unfold checkCells at h
    split at h
    · rename_i e' he
      cases h
      have hv : ¬ validAddr p ((pc + k : Nat) : Int) := by
        intro hc
        rw [checkAddr_of_valid hc] at he
        simp at he
      rw [checkAddr_of_invalid hv] at he
      cases he
      have hnn : ¬ ((pc + k : Nat) : Int) < 0 := by omega
      refine ⟨0, by omega, ?_, by omega, by simp only [addrTrap, if_neg hnn]; rfl⟩
      by_contra hc
      exact hv ⟨by omega, by omega⟩
    · rename_i a ha
      have hv : validAddr p ((pc + k : Nat) : Int) := by
        by_contra hc
        rw [checkAddr_of_invalid hc] at ha
        simp at ha
      obtain ⟨j, hj, hc, hlt, he⟩ := ih h
      refine ⟨j + 1, by omega, by omega, ?_, by rw [he]; congr 2; omega⟩
      intro j' hj'
      cases j' with
      | zero => have := hv.2; omega
      | succ j' => have := hlt j' (by omega); omega

/-- What a successful fetch says: the cells at `PC` exist and decode to the instruction. -/
theorem fetch_ok_iff (s : State) (i : Instr) :
    fetch s = .ok i ↔
      decode s.fetchedWord s.fetchedRaw = .ok i ∧ s.core.pc + i.params.length < s.params.memCapacity := by
  constructor
  · intro h
    unfold fetch at h
    split at h
    · simp at h
    · rename_i pc hpc
      have hv : s.core.pc < s.params.memCapacity := by
        by_contra hc
        rw [checkAddr_of_invalid (fun hv => hc (by have := hv.2; omega))] at hpc
        simp at hpc
      rw [checkAddr_nat hv] at hpc
      cases hpc
      split at h
      · simp at h
      · rename_i j hd
        split at h
        · simp at h
        · rename_i hc
          cases h
          have hj := checkCells_inv hc
          refine ⟨hd, ?_⟩
          rcases Nat.eq_zero_or_pos i.params.length with h0 | h0
          · omega
          · have := hj (i.params.length - 1) (by omega)
            omega
  · rintro ⟨hd, hp⟩
    have hv : s.core.pc < s.params.memCapacity := by omega
    have hc := checkCells_ok (p := s.params) (pc := s.core.pc) i.params.length 1 (fun j hj => by omega)
    unfold fetch
    rw [checkAddr_nat hv]
    simp only
    have hd' : decode (Memory.read s.core.mem s.core.pc) (fun k => Memory.read s.core.mem (s.core.pc + k)) = .ok i := hd
    rw [hd']
    simp only [hc]

/-- Every way a fetch can fail: `PC` does not exist, a parameter cell does not, or the word decodes to nothing and no address is recorded. -/
theorem fetch_error_cases {s : State} {e : Trap} (h : fetch s = .error e) :
    (s.params.memCapacity ≤ s.core.pc ∧ e = ⟨.capacity, (s.core.pc : Int)⟩) ∨
    (∃ i k, decode s.fetchedWord s.fetchedRaw = .ok i ∧ 1 ≤ k ∧ k ≤ i.params.length ∧ s.params.memCapacity ≤ s.core.pc + k ∧
      e = ⟨.capacity, ((s.core.pc + k : Nat) : Int)⟩) ∨
    (e.cause ≠ .none ∧ e.cause.recordsAddr = false) := by
  unfold fetch at h
  by_cases hv : s.core.pc < s.params.memCapacity
  · rw [checkAddr_nat hv] at h
    split at h
    · rename_i hc
      cases hc
    · rename_i pc hpc
      cases hpc
      split at h
      · rename_i d _
        cases h
        cases d <;> exact .inr (.inr ⟨by simp [causeOfDecode], rfl⟩)
      · rename_i i hd
        split at h
        · rename_i e' he
          cases h
          obtain ⟨j, hj, hcap, -, rfl⟩ := checkCells_error he
          exact .inr (.inl ⟨i, 1 + j, hd, by omega, by omega, by omega, by rw [Nat.add_assoc]⟩)
        · simp at h
  · have hnn : ¬ (s.core.pc : Int) < 0 := by omega
    rw [checkAddr_of_invalid (fun hc => hv (by have := hc.2; omega))] at h
    cases h
    exact .inl ⟨by omega, by simp only [addrTrap, if_neg hnn]⟩

/-- Every fault of a fetch has a cause. -/
theorem fetch_error_cause {s : State} {e : Trap} (h : fetch s = .error e) : e.cause ≠ .none := by
  rcases fetch_error_cases h with ⟨-, rfl⟩ | ⟨i, k, -, -, -, -, rfl⟩ | ⟨he, -⟩
  · simp
  · simp
  · exact he

/-- The three things a core's step can be: no step, a fetch fault, or the execution of the fetched instruction. -/
theorem stepCore_cases (s : State) :
    (s.core.enabled = false ∧ stepCore s = .next s) ∨
    (s.core.enabled = true ∧ ∃ e, fetch s = .error e ∧ e.cause ≠ .none ∧ stepCore s = .next (s.recordFault e)) ∨
    (s.core.enabled = true ∧ ∃ i, fetch s = .ok i ∧ stepCore s = exec i s) := by
  cases he : s.core.enabled with
  | false => exact .inl ⟨rfl, by simp [stepCore, he]⟩
  | true =>
    cases hf : fetch s with
    | error e => exact .inr (.inl ⟨rfl, e, rfl, fetch_error_cause hf, by simp [stepCore, he, hf]⟩)
    | ok i => exact .inr (.inr ⟨rfl, i, rfl, by simp [stepCore, he, hf]⟩)

theorem stepCore_of_fetch {s : State} {i : Instr} (he : s.core.enabled = true) (hf : fetch s = .ok i) :
    stepCore s = exec i s := by
  simp [stepCore, he, hf]

theorem stepCore_of_disabled {s : State} (he : s.core.enabled = false) : stepCore s = .next s := by
  simp [stepCore, he]

/-- A core's step answers a next state. -/
theorem stepCore_next (s : State) : ∃ t, stepCore s = .next t := by
  rcases stepCore_cases s with ⟨-, h⟩ | ⟨-, e, -, -, h⟩ | ⟨-, i, -, h⟩
  · exact ⟨_, h⟩
  · exact ⟨_, h⟩
  · obtain ⟨t, ht, -⟩ := exec_ends i s
    exact ⟨t, by rw [h, ht]⟩

/-- While no network runs, the machine's step is the standalone core's. -/
theorem step_of_not_running {s : State} (h : s.netStatus ≠ .running) : step s = stepCore s := by
  cases hn : s.netStatus <;> simp_all [step]

theorem step_of_running {s : State} (h : s.netStatus = .running) : step s = ringStep s := by
  simp [step, h]

end Sys2Proof.Machine
end

