-- ==== Sys2Proof/Laws/Ring.lean ====
section
/-! SUPPORT. The ring's operations, each said once: what a ring step by one core changes, and what settling the network status changes
(spec/60_exceptions.md R191, R195, R198-R201). -/

namespace Sys2Proof.Machine

/-! Settling. -/

/-- What settling can do: fail the network and stop every core but the faulted one, or set another status, the cores as they were. -/
theorem State.settle_cases (s : State) :
    (∃ j, s.nodes.findIdx? (fun n => decide (n.core.status = .faulted)) = some j ∧
      s.settle = { s with netStatus := .failed, netFailCore := j, nodes := abortOthers j s.nodes }) ∨
    ((∀ n ∈ s.nodes, n.core.status ≠ .faulted) ∧ ∃ st, s.settle = { s with netStatus := st } ∧
      ((∀ n ∈ s.nodes, n.core.status = .halted) ∧ st = (if s.netResultValid then .done else .noResult) ∨
       (¬ ∀ n ∈ s.nodes, n.core.status = .halted) ∧ (∃ j, j < s.nodes.length ∧ s.ringCanStep j = true) ∧ st = s.netStatus ∨
       (¬ ∀ n ∈ s.nodes, n.core.status = .halted) ∧ (∀ j, j < s.nodes.length → s.ringCanStep j = false) ∧ st = .deadlock)) := by
  unfold State.settle
  split
  · rename_i j hj
    exact .inl ⟨j, hj, rfl⟩
  · rename_i hnone
    have hf : ∀ n ∈ s.nodes, n.core.status ≠ .faulted := by
      intro n hn
      simpa using List.findIdx?_eq_none_iff.mp hnone n hn
    refine .inr ⟨hf, ?_⟩
    by_cases ha : ∀ n ∈ s.nodes, n.core.status = .halted
    · have hall : s.nodes.all (fun n => decide (n.core.status = .halted)) = true := by simpa using ha
      rw [if_pos hall]
      refine ⟨if s.netResultValid then .done else .noResult, ?_, .inl ⟨ha, rfl⟩⟩
      split <;> rfl
    · have hall : ¬ s.nodes.all (fun n => decide (n.core.status = .halted)) = true := by simpa using ha
      rw [if_neg hall]
      by_cases hc : ∃ j, j < s.nodes.length ∧ s.ringCanStep j = true
      · have hany : (List.range s.nodes.length).any s.ringCanStep = true := by simpa using hc
        rw [if_pos hany]
        exact ⟨s.netStatus, rfl, .inr (.inl ⟨ha, hc, rfl⟩)⟩
      · have hany : ¬ (List.range s.nodes.length).any s.ringCanStep = true := by simpa using hc
        rw [if_neg hany]
        refine ⟨.deadlock, rfl, .inr (.inr ⟨ha, ?_, rfl⟩)⟩
        intro j hj
        rw [← Bool.not_eq_true]
        exact fun h => hc ⟨j, hj, h⟩

@[simp] theorem State.settle_params (s : State) : s.settle.params = s.params := by
  rcases s.settle_cases with ⟨_, -, h⟩ | ⟨-, _, h, -⟩ <;> rw [h]
@[simp] theorem State.settle_image (s : State) : s.settle.image = s.image := by
  rcases s.settle_cases with ⟨_, -, h⟩ | ⟨-, _, h, -⟩ <;> rw [h]
@[simp] theorem State.settle_startPc (s : State) : s.settle.startPc = s.startPc := by
  rcases s.settle_cases with ⟨_, -, h⟩ | ⟨-, _, h, -⟩ <;> rw [h]
@[simp] theorem State.settle_core (s : State) : s.settle.core = s.core := by
  rcases s.settle_cases with ⟨_, -, h⟩ | ⟨-, _, h, -⟩ <;> rw [h]
@[simp] theorem State.settle_inq (s : State) : s.settle.inq = s.inq := by
  rcases s.settle_cases with ⟨_, -, h⟩ | ⟨-, _, h, -⟩ <;> rw [h]
@[simp] theorem State.settle_inEos (s : State) : s.settle.inEos = s.inEos := by
  rcases s.settle_cases with ⟨_, -, h⟩ | ⟨-, _, h, -⟩ <;> rw [h]
@[simp] theorem State.settle_outq (s : State) : s.settle.outq = s.outq := by
  rcases s.settle_cases with ⟨_, -, h⟩ | ⟨-, _, h, -⟩ <;> rw [h]
@[simp] theorem State.settle_netResult (s : State) : s.settle.netResult = s.netResult := by
  rcases s.settle_cases with ⟨_, -, h⟩ | ⟨-, _, h, -⟩ <;> rw [h]
@[simp] theorem State.settle_netResultValid (s : State) : s.settle.netResultValid = s.netResultValid := by
  rcases s.settle_cases with ⟨_, -, h⟩ | ⟨-, _, h, -⟩ <;> rw [h]
@[simp] theorem State.settle_tick (s : State) : s.settle.tick = s.tick := by
  rcases s.settle_cases with ⟨_, -, h⟩ | ⟨-, _, h, -⟩ <;> rw [h]

/-- An abort clears `RUN` in every core but one and changes nothing else (R200). -/
theorem abortOthers_getElem? (j : Nat) (nodes : List Node) (i : Nat) :
    (abortOthers j nodes)[i]? =
      nodes[i]?.map (fun n => if i = j then n else { n with core := { n.core with run := false } }) := by
  simp [abortOthers]

@[simp] theorem abortOthers_length (j : Nat) (nodes : List Node) : (abortOthers j nodes).length = nodes.length := by
  simp [abortOthers]

@[simp] theorem State.settle_nodes_length (s : State) : s.settle.nodes.length = s.nodes.length := by
  rcases s.settle_cases with ⟨_, -, h⟩ | ⟨-, _, h, -⟩ <;> rw [h]
  simp

/-- Node `i` after settling: the same, but that its `RUN` may have been cleared. -/
theorem State.settle_node (s : State) (i : Nat) :
    s.settle.node i = s.node i ∨
      s.settle.netStatus = .failed ∧ s.settle.node i = ⟨{ (s.node i).core with run := false }, (s.node i).chan⟩ := by
  rcases s.settle_cases with ⟨j, -, h⟩ | ⟨-, _, h, -⟩
  · rw [h]
    cases hn : s.nodes[i]? with
    | none => exact .inl (by simp only [State.node, List.getD_eq_getElem?_getD, abortOthers_getElem?, hn, Option.map_none])
    | some n =>
      by_cases hij : i = j
      · exact .inl (by
          simp only [State.node, List.getD_eq_getElem?_getD, abortOthers_getElem?, hn, Option.map_some, if_pos hij])
      · exact .inr ⟨rfl, by
          simp only [State.node, List.getD_eq_getElem?_getD, abortOthers_getElem?, hn, Option.map_some, if_neg hij,
            Option.getD_some]⟩
  · rw [h]
    exact .inl rfl

theorem State.settle_node_chan (s : State) (i : Nat) : (s.settle.node i).chan = (s.node i).chan := by
  rcases s.settle_node i with h | ⟨-, h⟩ <;> rw [h]

/-- The first core to fault keeps its `RUN`, and so does every core where none is faulted: settling leaves its node as it is. -/
theorem State.settle_node_of_first {s : State} {i : Nat} (h : ∀ j n, s.nodes[j]? = some n → j ≠ i → n.core.status ≠ .faulted) :
    s.settle.node i = s.node i := by
  rcases s.settle_cases with ⟨j, hj, hs⟩ | ⟨-, _, hs, -⟩
  · obtain ⟨hl, hf, -⟩ := List.findIdx?_eq_some_iff_getElem.mp hj
    have hij : i = j := by
      by_contra hne
      exact h j _ (List.getElem?_eq_getElem hl) (Ne.symm hne) (by simpa using hf)
    rw [hs]
    simp only [State.node, List.getD_eq_getElem?_getD, abortOthers_getElem?, if_pos hij, Option.map_id']
  · rw [hs]
    rfl

/-- Settling changes the ring's nodes and network registers and nothing else. -/
theorem State.settle_rest (s : State) :
    s.settle = { s with
      nodes := s.settle.nodes, netStatus := s.settle.netStatus, netFailCore := s.settle.netFailCore } := by
  rcases s.settle_cases with ⟨_, -, h⟩ | ⟨-, _, h, -⟩ <;> rw [h]

/-! The nodes after a core stepped. -/

@[simp] theorem Node.afterStep_length (nodes : List Node) (i : Nat) (v v' : State) :
    (Node.afterStep nodes i v v').length = nodes.length := by
  simp [Node.afterStep]

/-- Node `j` after core `i` stepped from the view `v` to `v'`: its channel loses what `i` popped if `j` is upstream of `i`, and node `i`
has the stepped core and what it pushed. -/
theorem Node.afterStep_getElem? (nodes : List Node) (i : Nat) (v v' : State) (j : Nat) :
    (Node.afterStep nodes i v v')[j]? = nodes[j]?.map (fun n =>
      ⟨if i = j then v'.core else n.core,
       (if upstream nodes.length i = j then n.chan.drop (v.inq.length - v'.inq.length) else n.chan) ++
         (if i = j then v'.outq.drop v.outq.length else [])⟩) := by
  simp only [Node.afterStep, List.getElem?_modify]
  rcases nodes[j]? with _ | n
  · rfl
  · by_cases h1 : i = j
    · subst h1
      by_cases h2 : upstream nodes.length i = i <;> simp [h2]
    · by_cases h2 : upstream nodes.length i = j <;> simp [h1, h2]

theorem State.node_eq {s : State} {i : Nat} (h : i < s.nodes.length) : s.node i = s.nodes[i] := by
  simp [State.node, h]

theorem State.nodes_getElem? {s : State} {i : Nat} (h : i < s.nodes.length) : s.nodes[i]? = some (s.node i) := by
  simp [State.node, h]

theorem upstream_lt {n i : Nat} (h : 0 < n) : upstream n i < n := Nat.mod_lt _ h

/-! Absorbing. -/

@[simp] theorem State.ringAbsorb_nodes (s : State) (i : Nat) (v : State) :
    (s.ringAbsorb i v).nodes = Node.afterStep s.nodes i (s.ringView i) v := by
  simp only [State.ringAbsorb]; split <;> try rfl
  split <;> rfl
@[simp] theorem State.ringAbsorb_params (s : State) (i : Nat) (v : State) : (s.ringAbsorb i v).params = s.params := by
  simp only [State.ringAbsorb]; split <;> try rfl
  split <;> rfl
@[simp] theorem State.ringAbsorb_image (s : State) (i : Nat) (v : State) : (s.ringAbsorb i v).image = s.image := by
  simp only [State.ringAbsorb]; split <;> try rfl
  split <;> rfl
@[simp] theorem State.ringAbsorb_startPc (s : State) (i : Nat) (v : State) : (s.ringAbsorb i v).startPc = s.startPc := by
  simp only [State.ringAbsorb]; split <;> try rfl
  split <;> rfl
@[simp] theorem State.ringAbsorb_core (s : State) (i : Nat) (v : State) : (s.ringAbsorb i v).core = s.core := by
  simp only [State.ringAbsorb]; split <;> try rfl
  split <;> rfl
@[simp] theorem State.ringAbsorb_inq (s : State) (i : Nat) (v : State) : (s.ringAbsorb i v).inq = s.inq := by
  simp only [State.ringAbsorb]; split <;> try rfl
  split <;> rfl
@[simp] theorem State.ringAbsorb_inEos (s : State) (i : Nat) (v : State) : (s.ringAbsorb i v).inEos = s.inEos := by
  simp only [State.ringAbsorb]; split <;> try rfl
  split <;> rfl
@[simp] theorem State.ringAbsorb_outq (s : State) (i : Nat) (v : State) : (s.ringAbsorb i v).outq = s.outq := by
  simp only [State.ringAbsorb]; split <;> try rfl
  split <;> rfl
@[simp] theorem State.ringAbsorb_netStatus (s : State) (i : Nat) (v : State) : (s.ringAbsorb i v).netStatus = s.netStatus := by
  simp only [State.ringAbsorb]; split <;> try rfl
  split <;> rfl
@[simp] theorem State.ringAbsorb_netFailCore (s : State) (i : Nat) (v : State) :
    (s.ringAbsorb i v).netFailCore = s.netFailCore := by
  simp only [State.ringAbsorb]; split <;> try rfl
  split <;> rfl
@[simp] theorem State.ringAbsorb_tick (s : State) (i : Nat) (v : State) : (s.ringAbsorb i v).tick = s.tick := by
  simp only [State.ringAbsorb]; split <;> try rfl
  split <;> rfl

/-- Absorbing changes the ring's nodes and result and nothing else. -/
theorem State.ringAbsorb_rest (s : State) (i : Nat) (v : State) :
    s.ringAbsorb i v = { s with
      nodes := (s.ringAbsorb i v).nodes, netResult := (s.ringAbsorb i v).netResult,
      netResultValid := (s.ringAbsorb i v).netResultValid } := by
  simp only [State.ringAbsorb]; split <;> try rfl
  split <;> rfl

/-- The network's result after core `i` stepped: what it pushed, if it is the last core and pushed (R198). -/
theorem State.ringAbsorb_result (s : State) (i : Nat) (v : State) :
    ((s.ringAbsorb i v).netResult, (s.ringAbsorb i v).netResultValid) =
      (if i + 1 = s.nodes.length then
        (match v.outq.drop (s.node i).chan.length with
         | [] => (s.netResult, s.netResultValid)
         | r :: _ => (r, true))
       else (s.netResult, s.netResultValid)) := by
  simp only [State.ringAbsorb, Node.afterStep_length, State.ringView_outq]
  by_cases h : i + 1 = s.nodes.length
  · rw [if_pos h, if_pos h]
    cases v.outq.drop (s.node i).chan.length <;> rfl
  · rw [if_neg h, if_neg h]

/-- Node `j` after core `i`'s step is absorbed. -/
theorem State.ringAbsorb_node {s : State} {i : Nat} (v : State) {j : Nat} (hj : j < s.nodes.length) :
    (s.ringAbsorb i v).node j =
      ⟨if i = j then v.core else (s.node j).core,
       (if upstream s.nodes.length i = j then
          (s.node j).chan.drop ((s.node (upstream s.nodes.length i)).chan.length - v.inq.length) else (s.node j).chan) ++
         (if i = j then v.outq.drop (s.node i).chan.length else [])⟩ := by
  have h : (s.ringAbsorb i v).nodes[j]? = some ((s.ringAbsorb i v).node j) := State.nodes_getElem? (by simpa using hj)
  rw [State.ringAbsorb_nodes, Node.afterStep_getElem?, State.nodes_getElem? hj] at h
  simpa using (Option.some.inj h).symm

/-! A ring step. -/

/-- A ring step by core `i`: none if it may not step, else its core's step, absorbed and settled. -/
theorem ringStepAt_cases (i : Nat) (s : State) :
    ((s.netStatus = .running ∧ i < s.nodes.length ∧ s.ringCanStep i = true) ∧
      ∃ v, stepCore (s.ringView i) = .next v ∧ ringStepAt i s = .next (s.ringAbsorb i v).settle) ∨
    (¬ (s.netStatus = .running ∧ i < s.nodes.length ∧ s.ringCanStep i = true) ∧ ringStepAt i s = .next s) := by
  by_cases h : s.netStatus = .running ∧ i < s.nodes.length ∧ s.ringCanStep i = true
  · obtain ⟨v, hv⟩ := stepCore_next (s.ringView i)
    exact .inl ⟨h, v, hv, by simp [ringStepAt, h, hv]⟩
  · refine .inr ⟨h, ?_⟩
    have hb : (decide (s.netStatus = .running) && decide (i < s.nodes.length) && s.ringCanStep i) = false := by
      rw [← Bool.not_eq_true]
      simpa [and_assoc] using h
    simp [ringStepAt, hb]

/-- Where some core may step, the free choice picks one that may, whatever its value. -/
theorem State.ringPick_mayStep {s : State} (h : Nat) (hc : ∃ i < s.nodes.length, s.ringCanStep i = true) :
    s.ringPick h < s.nodes.length ∧ s.ringCanStep (s.ringPick h) = true := by
  obtain ⟨i, hi, hs⟩ := hc
  have hm : i ∈ s.ringReady := by simp [State.ringReady, hi, hs]
  have hl : h % s.ringReady.length < s.ringReady.length := Nat.mod_lt _ (List.length_pos_of_mem hm)
  have hp : s.ringPick h ∈ s.ringReady := by simp [State.ringPick, hl]
  simpa [State.ringReady] using hp

/-- The machine's ring step is a ring step by some core, with the counter advanced. -/
theorem ringStep_cases (s : State) : ∃ i t, ringStepAt i s = .next t ∧ ringStep s = .next { t with tick := s.tick + 1 } := by
  have h : ∃ t, ringStepAt (s.ringPick (Config.schedule s.tick)) s = .next t := by
    rcases ringStepAt_cases (s.ringPick (Config.schedule s.tick)) s with ⟨-, v, -, h⟩ | ⟨-, h⟩
    · exact ⟨_, h⟩
    · exact ⟨_, h⟩
  obtain ⟨t, ht⟩ := h
  exact ⟨_, t, ht, by simp [ringStep, ht]⟩

/-- What a core's step does to its queues: nothing, or it takes the oldest token, or it adds a value to a queue with
room. -/
theorem stepCore_queues {s t : State} (h : stepCore s = .next t) :
    (t.inq = s.inq ∧ t.outq = s.outq) ∨
    (∃ v, s.inq = .val v :: t.inq ∧ t.outq = s.outq) ∨
    (∃ v, t.inq = s.inq ∧ t.outq = s.outq ++ [v] ∧ queueFull s.params s.outq.length = false) := by
  rcases stepCore_cases s with ⟨-, h'⟩ | ⟨-, e, -, -, h'⟩ | ⟨-, i, -, h'⟩
  · rw [h] at h'
    cases h'
    exact .inl ⟨rfl, rfl⟩
  · rw [h] at h'
    cases h'
    exact .inl ⟨rfl, rfl⟩
  · rw [h] at h'
    cases exec_cases h'.symm with
    | inp ht hq => exact .inr (.inl ⟨_, hq, rfl⟩)
    | out ha hq => exact .inr (.inr ⟨_, rfl, rfl, hq⟩)
    | _ => exact .inl (by simp [afterBinary, afterJump, afterArb, afterHalt])

end Sys2Proof.Machine
end

