-- ==== Sys2Proof/Laws/Congruence.lean ====
section
/-! SUPPORT. What the step of a core depends on: the parameters, its registers and memory, the head of its input queue and whether its
output queue is full. Two states alike in those take alike steps, whatever else differs. -/

namespace Sys2Proof.Machine

/-- The slot can be read in both states or in neither, to the same effect. -/
theorem operand_congr {s s' : State} (hp : s'.params = s.params) (hc : s'.core = s.core) (a : Param) :
    (s'.readable a ↔ s.readable a) ∧ (s'.targetable a ↔ s.targetable a) ∧ s'.operandValue a = s.operandValue a ∧
      s'.slotTouched a = s.slotTouched a ∧ s'.slotAddr a = s.slotAddr a := by
  unfold State.readable State.targetable State.operandValue State.slotTouched State.slotAddr
  rw [hp, hc]
  simp

theorem fetch_congr {s s' : State} (hp : s'.params = s.params) (hc : s'.core = s.core) : fetch s' = fetch s := by
  unfold fetch
  rw [hp, hc]

theorem commit_core_congr {s s' : State} (hc : s'.core = s.core) (len next : Nat) (touched : List Nat) :
    (s'.commit len touched next).core = (s.commit len touched next).core := by
  unfold State.commit
  rw [hc]

theorem store_core_congr {s s' : State} (hc : s'.core = s.core) (a : Nat) (v : Word) :
    (s'.store a v).core = (s.store a v).core := by
  unfold State.store
  rw [hc]

/-- A core may step if it is enabled, its instruction is fetched, and it is no IN without a token and no OUT without room. -/
theorem canStep_of_fetch {s : State} {i : Instr} (he : s.core.enabled = true) (hf : fetch s = .ok i)
    (hin : ∀ t, i = .inp t → s.inq ≠ []) (hout : ∀ a, i = .out a → queueFull s.params s.outq.length = false) :
    s.canStep = true := by
  simp only [State.canStep, he, Bool.true_and, Bool.and_eq_true, Bool.not_eq_true']
  constructor
  · unfold State.waitIn
    rw [hf, he]
    cases i <;> simp
    split
    · simp [hin _ rfl]
    · rfl
  · unfold State.waitOut
    rw [hf, he]
    cases i <;> simp
    split
    · exact hout _ rfl
    · rfl

theorem waitIn_of_inWait {s : State} {t : Param} (he : s.core.enabled = true) (hf : fetch s = .ok (.inp t))
    (ht : s.targetable t) (hq : s.inq = []) (ho : s.inEos = false) : s.waitIn = true := by
  unfold State.waitIn
  rw [hf, he]
  simp only [writeTarget_of_targetable ht]
  simp [hq, ho]

theorem waitOut_of_outWait {s : State} {a : Param} (he : s.core.enabled = true) (hf : fetch s = .ok (.out a))
    (ha : s.readable a) (hq : queueFull s.params s.outq.length = true) : s.waitOut = true := by
  unfold State.waitOut
  rw [hf, he]
  simp only [readOperand_of_readable ha]
  simp [hq]

/-- The step of a core that may step, taken from another state with the same parameters and core, whose input queue has the same head
and whose output queue is full no sooner: the core steps there too, alike, taking as many tokens and adding the same values. -/
theorem stepCore_congr {s s' t : State} (hp : s'.params = s.params) (hc : s'.core = s.core) (hcan : s.canStep = true)
    (hs : stepCore s = .next t) (hnf : t.core.status ≠ .faulted)
    (hin : ∀ x xs, s.inq = x :: xs → ∃ ys, s'.inq = x :: ys)
    (hout : queueFull s.params s.outq.length = false → queueFull s'.params s'.outq.length = false) :
    ∃ t', stepCore s' = .next t' ∧ t'.core = t.core ∧ s'.inq.length - t'.inq.length = s.inq.length - t.inq.length ∧
      t'.outq.drop s'.outq.length = t.outq.drop s.outq.length ∧ s'.canStep = true := by
  have hcan' := hcan
  simp only [State.canStep, Bool.and_eq_true, Bool.not_eq_true'] at hcan'
  obtain ⟨⟨hen, hwi⟩, hwo⟩ := hcan'
  have hen' : s'.core.enabled = true := by rw [hc]; exact hen
  have hpc : s'.core.pc = s.core.pc := by rw [hc]
  have oc := operand_congr hp hc
  rcases stepCore_cases s with ⟨h1, -⟩ | ⟨-, e, -, -, h'⟩ | ⟨-, i, hf, h'⟩
  · simp [hen] at h1
  · rw [hs] at h'
    cases h'
    simp at hnf
  · have hf' : fetch s' = .ok i := by rw [fetch_congr hp hc, hf]
    rw [hs] at h'
    rw [stepCore_of_fetch hen' hf']
    have bin : ∀ a b t x, (afterBinary s' a b t x).core = (afterBinary s a b t x).core := by
      intro a b t x
      unfold afterBinary
      rw [(oc a).2.2.2.1, (oc b).2.2.2.1, (oc t).2.2.2.2, hpc]
      exact store_core_congr (commit_core_congr hc ..) ..
    have jmp : ∀ a b n, (afterJump s' a b n).core = (afterJump s a b n).core := by
      intro a b n
      unfold afterJump
      rw [(oc a).2.2.2.1, (oc b).2.2.2.1]
      exact commit_core_congr hc ..
    have other : (∀ t, i ≠ .inp t) → (∀ a, i ≠ .out a) → s'.canStep = true :=
      fun h1 h2 => canStep_of_fetch hen' hf' (fun t h => absurd h (h1 t)) (fun a h => absurd h (h2 a))
    cases exec_cases h'.symm with
    | @add a b t x ha hb ht hv =>
      have hx : exec (.add a b t) s' = .next (afterBinary s' a b t x) := by
        rw [exec_add]
        exact binaryToTarget_ok ((oc a).1.2 ha) ((oc b).1.2 hb) ((oc t).2.1.2 ht) (by rw [(oc a).2.2.1, (oc b).2.2.1, hp]; exact hv)
      exact ⟨_, hx, bin .., by simp [afterBinary], by simp [afterBinary], other (by simp) (by simp)⟩
    | @mul a b t x ha hb ht hv =>
      have hx : exec (.mul a b t) s' = .next (afterBinary s' a b t x) := by
        rw [exec_mul]
        exact binaryToTarget_ok ((oc a).1.2 ha) ((oc b).1.2 hb) ((oc t).2.1.2 ht) (by rw [(oc a).2.2.1, (oc b).2.2.1, hp]; exact hv)
      exact ⟨_, hx, bin .., by simp [afterBinary], by simp [afterBinary], other (by simp) (by simp)⟩
    | @lt a b t ha hb ht =>
      have hx : exec (.lt a b t) s' =
          .next (afterBinary s' a b t (boolWord (decide ((s.operandValue a).toInt < (s.operandValue b).toInt)))) := by
        rw [exec_lt, ← (oc a).2.2.1, ← (oc b).2.2.1]
        exact binaryToTarget_ok ((oc a).1.2 ha) ((oc b).1.2 hb) ((oc t).2.1.2 ht) rfl
      exact ⟨_, hx, bin .., by simp [afterBinary], by simp [afterBinary], other (by simp) (by simp)⟩
    | @eq a b t ha hb ht =>
      have hx : exec (.eq a b t) s' =
          .next (afterBinary s' a b t (boolWord (decide ((s.operandValue a).toInt = (s.operandValue b).toInt)))) := by
        rw [exec_eq, ← (oc a).2.2.1, ← (oc b).2.2.1]
        exact binaryToTarget_ok ((oc a).1.2 ha) ((oc b).1.2 hb) ((oc t).2.1.2 ht) rfl
      exact ⟨_, hx, bin .., by simp [afterBinary], by simp [afterBinary], other (by simp) (by simp)⟩
    | @inp t x rest ht hq =>
      obtain ⟨ys, hys⟩ := hin _ _ hq
      have hx : exec (.inp t) s' = .next (afterIn s' t x ys) := by
        simp [exec, execIn, writeTarget_of_targetable ((oc t).2.1.2 ht), hys, finish_ok, afterIn]
      refine ⟨_, hx, ?_, by simp [afterIn, hys, hq], by simp [afterIn], canStep_of_fetch hen' hf' (by simp [hys]) (by simp)⟩
      unfold afterIn
      simp only
      rw [(oc t).2.2.2.2, hpc]
      exact store_core_congr (commit_core_congr hc ..) ..
    | inWait ht hq he => simp [waitIn_of_inWait hen hf ht hq he] at hwi
    | @out a ha hq =>
      have hx : exec (.out a) s' = .next (afterOut s' a) := by
        simp only [exec, execOut, readOperand_of_readable ((oc a).1.2 ha), hout hq]
        rfl
      refine ⟨_, hx, ?_, by simp [afterOut], by simp [afterOut, (oc a).2.2.1],
        canStep_of_fetch hen' hf' (by simp) (fun _ _ => hout hq)⟩
      unfold afterOut
      simp only
      rw [(oc a).2.2.2.1, hpc]
      exact commit_core_congr hc ..
    | outWait ha hq => simp [waitOut_of_outWait hen hf ha hq] at hwo
    | @jtTaken a b ha hb hx hn =>
      have he : exec (.jt a b) s' = .next (afterJump s' a b (s.operandValue b).toNat) := by
        rw [exec_jt, ← (oc b).2.2.1]
        exact jumpIf_taken ((oc a).1.2 ha) ((oc b).1.2 hb) (by rw [(oc a).2.2.1]; simpa using hx) (by rw [(oc b).2.2.1]; exact hn)
      exact ⟨_, he, jmp .., by simp [afterJump], by simp [afterJump], other (by simp) (by simp)⟩
    | @jtUntaken a b ha hb hx =>
      have he : exec (.jt a b) s' = .next (afterJump s' a b (s.core.pc + 3)) := by
        rw [exec_jt, ← hpc]
        exact jumpIf_untaken ((oc a).1.2 ha) ((oc b).1.2 hb) (by rw [(oc a).2.2.1]; simpa using hx)
      exact ⟨_, he, jmp .., by simp [afterJump], by simp [afterJump], other (by simp) (by simp)⟩
    | @jfTaken a b ha hb hx hn =>
      have he : exec (.jf a b) s' = .next (afterJump s' a b (s.operandValue b).toNat) := by
        rw [exec_jf, ← (oc b).2.2.1]
        exact jumpIf_taken ((oc a).1.2 ha) ((oc b).1.2 hb) (by rw [(oc a).2.2.1]; simpa using hx) (by rw [(oc b).2.2.1]; exact hn)
      exact ⟨_, he, jmp .., by simp [afterJump], by simp [afterJump], other (by simp) (by simp)⟩
    | @jfUntaken a b ha hb hx =>
      have he : exec (.jf a b) s' = .next (afterJump s' a b (s.core.pc + 3)) := by
        rw [exec_jf, ← hpc]
        exact jumpIf_untaken ((oc a).1.2 ha) ((oc b).1.2 hb) (by rw [(oc a).2.2.1]; simpa using hx)
      exact ⟨_, he, jmp .., by simp [afterJump], by simp [afterJump], other (by simp) (by simp)⟩
    | @arb a r ha hr =>
      have hr' : narrow s'.params (s'.core.rb.toInt + (s'.operandValue a).toInt) = .ok r := by
        rw [hp, hc, (oc a).2.2.1]
        exact hr
      have hx : exec (.arb a) s' = .next (afterArb s' a r) := by
        simp only [exec, execArb, readOperand_of_readable ((oc a).1.2 ha), hr', finish_ok]
        rfl
      refine ⟨_, hx, ?_, by simp [afterArb], by simp [afterArb], other (by simp) (by simp)⟩
      unfold afterArb
      simp only
      rw [(oc a).2.2.2.1, hpc, commit_core_congr hc]
    | halt =>
      refine ⟨_, execHalt_eq s', ?_, by simp [afterHalt], by simp [afterHalt], other (by simp) (by simp)⟩
      unfold afterHalt
      simp only
      rw [hpc, commit_core_congr hc]
    | fault e he => simp at hnf

/-! The wiring of the ring (spec/60_exceptions.md R191). -/

/-- The upstream index of a core of the ring, without the modulus. -/
theorem upstream_eq {n i : Nat} (h : i < n) : upstream n i = if i = 0 then n - 1 else i - 1 := by
  unfold upstream
  split
  · rename_i h0
    subst h0
    rw [show 0 + n - 1 = n - 1 by omega]
    exact Nat.mod_eq_of_lt (by omega)
  · rw [show i + n - 1 = (i - 1) + n by omega, Nat.add_mod_right]
    exact Nat.mod_eq_of_lt (by omega)

/-- Each channel has one consumer. -/
theorem upstream_inj {n i j : Nat} (hi : i < n) (hj : j < n) (h : upstream n i = upstream n j) : i = j := by
  rw [upstream_eq hi, upstream_eq hj] at h
  split at h <;> split at h <;> omega

/-- Only in a ring of one core does a core feed itself. -/
theorem upstream_ne_self {n k : Nat} (hn : 1 < n) (hk : k < n) : upstream n k ≠ k := by
  rw [upstream_eq hk]
  split <;> omega

end Sys2Proof.Machine
end

