-- ==== Sys2Proof/Laws/Boot.lean ====
section
/-! SUPPORT. The steps of booting a ring, each said once by the node it changes (spec/70_reset_and_hazards.md R224). -/

namespace Sys2Proof.Machine

@[simp] theorem State.ringReset_length (s : State) (P : List Word) (start : Nat) :
    (s.ringReset P start).nodes.length = s.params.ampCount := by
  simp [State.ringReset]

theorem State.ringReset_node (s : State) (P : List Word) (start : Nat) {i : Nat} (hi : i < s.params.ampCount) :
    (s.ringReset P start).node i = ⟨CoreRegs.resetWith P start, []⟩ := by
  simp [State.ringReset, State.node, List.getD_eq_getElem?_getD, hi]

@[simp] theorem State.ringPush_length (s : State) (j : Nat) (v : Word) : (s.ringPush j v).nodes.length = s.nodes.length := by
  simp [State.ringPush]

/-- A push changes one channel. -/
theorem State.ringPush_node (s : State) (j i : Nat) (v : Word) :
    (s.ringPush j v).node i =
      if j = i ∧ i < s.nodes.length then ⟨(s.node i).core, (s.node i).chan ++ [v]⟩ else s.node i := by
  simp only [State.ringPush, State.node, List.getD_eq_getElem?_getD, List.getElem?_modify, push]
  by_cases hi : i < s.nodes.length
  · by_cases h : j = i <;> simp [hi, h]
  · simp [hi]

theorem State.ringPush_node_core (s : State) (j i : Nat) (v : Word) : ((s.ringPush j v).node i).core = (s.node i).core := by
  rw [State.ringPush_node]
  split <;> rfl

@[simp] theorem State.ringPhases_length (s : State) (i0 : Nat) (phases : List Word) :
    (s.ringPhases i0 phases).nodes.length = s.nodes.length := by
  induction phases generalizing i0 s with
  | nil => rfl
  | cons v rest ih => simp only [State.ringPhases, ih, State.ringPush_length]

theorem State.ringPhases_node_core (s : State) (i0 : Nat) (phases : List Word) (i : Nat) :
    ((s.ringPhases i0 phases).node i).core = (s.node i).core := by
  induction phases generalizing i0 s with
  | nil => rfl
  | cons v rest ih => simp only [State.ringPhases, ih, State.ringPush_node_core]

/-- The phases add each core's own to its input channel (R192). -/
theorem State.ringPhases_chan (s : State) (i0 : Nat) (phases : List Word) (hl : i0 + phases.length ≤ s.nodes.length) (i : Nat)
    (hi : i < s.nodes.length) :
    ((s.ringPhases i0 phases).node (upstream s.nodes.length i)).chan =
      (s.node (upstream s.nodes.length i)).chan ++ (if i0 ≤ i then (phases[i - i0]?).toList else []) := by
  induction phases generalizing i0 s with
  | nil => simp [State.ringPhases]
  | cons v rest ih =>
    simp only [List.length_cons] at hl
    have hr := ih (s.ringPush (upstream s.nodes.length i0) v) (i0 + 1) (by rw [State.ringPush_length]; omega)
      (by rw [State.ringPush_length]; exact hi)
    rw [State.ringPush_length] at hr
    simp only [State.ringPhases]
    rw [hr, State.ringPush_node]
    have h0 : upstream s.nodes.length i < s.nodes.length := upstream_lt (by omega)
    by_cases he : i0 = i
    · subst he
      simp [h0]
    · have hne : upstream s.nodes.length i0 ≠ upstream s.nodes.length i := fun h => he (upstream_inj (by omega) hi h)
      rw [if_neg (fun h => hne h.1)]
      by_cases hle : i0 ≤ i
      · rw [if_pos (by omega), if_pos hle, show i - i0 = (i - (i0 + 1)) + 1 by omega]
        simp
      · rw [if_neg (by omega), if_neg hle]

@[simp] theorem State.ringDrive_length (s : State) : s.ringDrive.nodes.length = s.nodes.length := State.ringPush_length ..

theorem State.ringDrive_node_core (s : State) (i : Nat) : (s.ringDrive.node i).core = (s.node i).core :=
  State.ringPush_node_core ..

/-- The phases and pushes change nothing but channels. -/
theorem State.ringPhases_rest (s : State) (i0 : Nat) (phases : List Word) :
    s.ringPhases i0 phases = { s with nodes := (s.ringPhases i0 phases).nodes } := by
  induction phases generalizing i0 s with
  | nil => rfl
  | cons v rest ih =>
    simp only [State.ringPhases]
    rw [ih]
    rfl

end Sys2Proof.Machine
end

