-- ==== Sys2Proof/Laws/Invariant.lean ====
section
/-! SUPPORT. The core's part of the invariant, kept by every way an instruction can end, and so by a step of a core. -/

namespace Sys2Proof.Machine

/-! Queues within their depth. -/

theorem queueFits_mono {p : Params} {n m : Nat} (h : queueFits p n = true) (hm : m ≤ n) : queueFits p m = true := by
  unfold queueFits at *
  cases hd : p.queueDepth <;> simp_all
  omega

/-- A queue that is within its depth and not full has room for one more. -/
theorem queueFits_push {p : Params} {n : Nat} (h : queueFits p n = true) (hf : queueFull p n = false) :
    queueFits p (n + 1) = true := by
  unfold queueFits queueFull at *
  cases hd : p.queueDepth <;> simp_all
  omega

theorem queueFits_of_room {p : Params} {n : Nat} (h : queueRoom p n = true) : queueFits p (n + 1) = true := by
  unfold queueFits queueRoom at *
  cases hd : p.queueDepth <;> simp_all

/-! The core. -/

theorem memCapacity_le {p : Params} (h : p.valid = true) : p.memCapacity ≤ 2 ^ 63 := by
  simp [Params.valid] at h
  omega

/-- A fault keeps the core's invariant. -/
theorem CoreRegs.Inv.recordFault {s : State} {e : Trap} (h : CoreRegs.Inv s.params s.core) (he : e.cause ≠ .none) :
    CoreRegs.Inv s.params (s.recordFault e).core := by
  refine ⟨h.mem_canonical, h.mem_below, h.mlen_le, h.pc_le, ?_, fun _ => rfl, ?_⟩
  · simp [he]
  · simp

theorem CoreRegs.Inv.withRun {p : Params} {c : CoreRegs} (h : CoreRegs.Inv p c) (b : Bool) :
    CoreRegs.Inv p { c with run := b } :=
  ⟨h.mem_canonical, h.mem_below, h.mlen_le, h.pc_le, h.faulted_iff, h.fault_pc, h.no_record⟩

/-- Reset gives a core that meets the invariant. -/
theorem CoreRegs.Inv.resetWith {p : Params} (hv : p.valid = true) {P : List Word} {k : Nat} (hl : P.length ≤ p.memCapacity)
    (hk : k < p.memCapacity) : CoreRegs.Inv p (CoreRegs.resetWith P k) := by
  have := memCapacity_le hv
  refine ⟨Memory.wf_ofImage P, ?_, hl, by simp; omega, by simp, by simp, by simp⟩
  simpa using Memory.below_ofImage 0 P

/-- The core a commit leaves meets the invariant, if its memory is in order, its `PC` in range and its fault record untouched. -/
theorem CoreRegs.Inv.commit {s : State} {c : CoreRegs} {len : Nat} {touched : List Nat} (h : CoreRegs.Inv s.params s.core)
    (hst : s.core.status = .ready) (hp : s.core.pc + len ≤ s.params.memCapacity) (ht : ∀ a ∈ touched, a < s.params.memCapacity)
    (hn : c.pc ≤ 2 ^ 63) (hm : Memory.wf c.mem = true) (hb : Memory.below c.mlen c.mem = true)
    (hml : c.mlen = extend s.core.mlen ((List.range len).map (s.core.pc + ·) ++ touched)) (hs : c.status ≠ .faulted)
    (hr : sameControl s.core c) : CoreRegs.Inv s.params c := by
  have hnf : s.core.status ≠ .faulted := by simp [hst]
  have hcn : s.core.faultCause = .none := by
    by_contra hc
    exact hnf (h.faulted_iff.mpr hc)
  obtain ⟨a1, a2, a3⟩ := h.no_record hnf
  obtain ⟨-, hc, hfp, hfw, hfa⟩ := hr
  refine ⟨hm, hb, ?_, hn, by simp [hs, hc, hcn], fun h => absurd h hs, fun _ => by simp [hfp, hfw, hfa, a1, a2, a3]⟩
  rw [hml]
  apply extend_le h.mlen_le
  intro a ha
  simp only [List.mem_append, List.mem_map, List.mem_range] at ha
  rcases ha with ⟨k, hk, rfl⟩ | ha
  · omega
  · exact ht a ha

theorem touched_two_lt {s : State} {a b : Param} (ha : s.readable a) (hb : s.readable b) :
    ∀ x ∈ s.slotTouched a ++ s.slotTouched b, x < s.params.memCapacity := by
  intro x hx
  rcases List.mem_append.mp hx with h | h
  · exact slotTouched_lt_of_readable ha h
  · exact slotTouched_lt_of_readable hb h

theorem toNat_le_of_nonneg {v : Word} (h : 0 ≤ v.toInt) : v.toNat ≤ 2 ^ 63 := by
  have := toNat_of_nonneg h
  have := BitVec.toInt_lt (x := v)
  omega

theorem CoreRegs.Inv.afterBinary {s : State} {a b t : Param} {v : Word} (h : CoreRegs.Inv s.params s.core)
    (hst : s.core.status = .ready) (hv : s.params.valid = true) (hp : s.core.pc + 4 ≤ s.params.memCapacity)
    (ha : s.readable a) (hb : s.readable b) (ht : s.targetable t) :
    CoreRegs.Inv s.params (afterBinary s a b t v).core := by
  have := memCapacity_le hv
  have hta := slotAddr_lt_of_targetable ht
  refine CoreRegs.Inv.commit (len := 4) (touched := s.slotTouched a ++ s.slotTouched b ++ [s.slotAddr t]) h hst hp ?_ ?_
    (Memory.wf_write h.mem_canonical _ _) (Memory.below_write h.mem_below (le_extend _ _) (lt_extend (by simp)) _) rfl ?_
    (commits_afterBinary s a b t v).2.2.1
  · intro x hx
    rcases List.mem_append.mp hx with h | h
    · exact touched_two_lt ha hb x h
    · simp only [List.mem_singleton] at h
      omega
  · show s.core.pc + 4 ≤ 2 ^ 63
    omega
  · show s.core.status ≠ .faulted
    simp [hst]

theorem CoreRegs.Inv.afterJump {s : State} {a b : Param} {n : Nat} (h : CoreRegs.Inv s.params s.core)
    (hst : s.core.status = .ready) (hp : s.core.pc + 3 ≤ s.params.memCapacity) (ha : s.readable a) (hb : s.readable b)
    (hn : n ≤ 2 ^ 63) : CoreRegs.Inv s.params (afterJump s a b n).core := by
  refine CoreRegs.Inv.commit (len := 3) (touched := s.slotTouched a ++ s.slotTouched b) h hst hp (touched_two_lt ha hb) hn
    h.mem_canonical (Memory.below_mono h.mem_below (le_extend _ _)) rfl ?_ (commits_afterJump s a b n).2.2.1
  show s.core.status ≠ .faulted
  simp [hst]

theorem CoreRegs.Inv.afterIn {s : State} {t : Param} {v : Word} {rest : List Token} (h : CoreRegs.Inv s.params s.core)
    (hst : s.core.status = .ready) (hv : s.params.valid = true) (hp : s.core.pc + 2 ≤ s.params.memCapacity)
    (ht : s.targetable t) : CoreRegs.Inv s.params (afterIn s t v rest).core := by
  have := memCapacity_le hv
  have hta := slotAddr_lt_of_targetable ht
  refine CoreRegs.Inv.commit (len := 2) (touched := [s.slotAddr t]) h hst hp ?_ ?_
    (Memory.wf_write h.mem_canonical _ _) (Memory.below_write h.mem_below (le_extend _ _) (lt_extend (by simp)) _) rfl ?_
    (commits_afterIn s t v rest).2.2.1
  · intro x hx
    simp only [List.mem_singleton] at hx
    omega
  · show s.core.pc + 2 ≤ 2 ^ 63
    omega
  · show s.core.status ≠ .faulted
    simp [hst]

theorem CoreRegs.Inv.afterOut {s : State} {a : Param} (h : CoreRegs.Inv s.params s.core) (hst : s.core.status = .ready)
    (hv : s.params.valid = true) (hp : s.core.pc + 2 ≤ s.params.memCapacity) (ha : s.readable a) :
    CoreRegs.Inv s.params (afterOut s a).core := by
  have := memCapacity_le hv
  refine CoreRegs.Inv.commit (len := 2) (touched := s.slotTouched a) h hst hp (fun x hx => slotTouched_lt_of_readable ha hx) ?_
    h.mem_canonical (Memory.below_mono h.mem_below (le_extend _ _)) rfl ?_ (commits_afterOut s a).2.2.1
  · show s.core.pc + 2 ≤ 2 ^ 63
    omega
  · show s.core.status ≠ .faulted
    simp [hst]

theorem CoreRegs.Inv.afterArb {s : State} {a : Param} {r : Word} (h : CoreRegs.Inv s.params s.core)
    (hst : s.core.status = .ready) (hv : s.params.valid = true) (hp : s.core.pc + 2 ≤ s.params.memCapacity)
    (ha : s.readable a) : CoreRegs.Inv s.params (afterArb s a r).core := by
  have := memCapacity_le hv
  refine CoreRegs.Inv.commit (len := 2) (touched := s.slotTouched a) h hst hp (fun x hx => slotTouched_lt_of_readable ha hx) ?_
    h.mem_canonical (Memory.below_mono h.mem_below (le_extend _ _)) rfl ?_ (commits_afterArb s a r).2.2.1
  · show s.core.pc + 2 ≤ 2 ^ 63
    omega
  · show s.core.status ≠ .faulted
    simp [hst]

theorem CoreRegs.Inv.afterHalt {s : State} (h : CoreRegs.Inv s.params s.core) (hst : s.core.status = .ready)
    (hv : s.params.valid = true) (hp : s.core.pc + 1 ≤ s.params.memCapacity) : CoreRegs.Inv s.params (afterHalt s).core := by
  have := memCapacity_le hv
  refine CoreRegs.Inv.commit (len := 1) (touched := []) h hst hp (by simp) ?_
    h.mem_canonical (Memory.below_mono h.mem_below (le_extend _ _)) rfl ?_ (commits_afterHalt s).2.2.1
  · show s.core.pc + 1 ≤ 2 ^ 63
    omega
  · show Status.halted ≠ .faulted
    simp

/-- Every way an instruction can end keeps the core's invariant. -/
theorem Ends.core_inv {s t : State} {i : Instr} (he : Ends s i t) (hv : s.params.valid = true)
    (h : CoreRegs.Inv s.params s.core) (hst : s.core.status = .ready)
    (hp : s.core.pc + i.params.length < s.params.memCapacity) : CoreRegs.Inv s.params t.core := by
  have := memCapacity_le hv
  cases he with
  | add ha hb ht hv' => exact h.afterBinary hst hv (by simp [Instr.params] at hp; omega) ha hb ht
  | mul ha hb ht hv' => exact h.afterBinary hst hv (by simp [Instr.params] at hp; omega) ha hb ht
  | lt ha hb ht => exact h.afterBinary hst hv (by simp [Instr.params] at hp; omega) ha hb ht
  | eq ha hb ht => exact h.afterBinary hst hv (by simp [Instr.params] at hp; omega) ha hb ht
  | inp ht hq => exact h.afterIn hst hv (by simp [Instr.params] at hp; omega) ht
  | inWait => exact h
  | out ha hq => exact h.afterOut hst hv (by simp [Instr.params] at hp; omega) ha
  | outWait => exact h
  | jtTaken ha hb hx hn => exact h.afterJump hst (by simp [Instr.params] at hp; omega) ha hb (toNat_le_of_nonneg hn)
  | jtUntaken ha hb hx =>
    exact h.afterJump hst (by simp [Instr.params] at hp; omega) ha hb (by simp [Instr.params] at hp; omega)
  | jfTaken ha hb hx hn => exact h.afterJump hst (by simp [Instr.params] at hp; omega) ha hb (toNat_le_of_nonneg hn)
  | jfUntaken ha hb hx =>
    exact h.afterJump hst (by simp [Instr.params] at hp; omega) ha hb (by simp [Instr.params] at hp; omega)
  | arb ha hr => exact h.afterArb hst hv (by simp [Instr.params] at hp; omega) ha
  | halt => exact h.afterHalt hst hv (by simp [Instr.params] at hp; omega)
  | fault e he => exact h.recordFault he

/-- No instruction leaves its core: the parameters, the ring and what the host keeps stay, and so does `RUN`. -/
theorem Ends.outside {s t : State} {i : Instr} (he : Ends s i t) : sameOutside s t ∧ t.core.run = s.core.run := by
  cases he <;> simp [sameOutside, afterBinary, afterIn, afterOut, afterJump, afterArb, afterHalt]

/-- A core's step keeps the core's invariant and leaves everything outside the core and its queues. -/
theorem stepCore_core_inv {s t : State} (hv : s.params.valid = true) (h : CoreRegs.Inv s.params s.core)
    (hs : stepCore s = .next t) : CoreRegs.Inv s.params t.core ∧ sameOutside s t ∧ t.core.run = s.core.run := by
  rcases stepCore_cases s with ⟨-, h'⟩ | ⟨-, e, -, he, h'⟩ | ⟨hen, i, hf, h'⟩
  · rw [hs] at h'
    cases h'
    exact ⟨h, ⟨rfl, rfl, rfl, rfl, rfl, rfl, rfl, rfl, rfl⟩, rfl⟩
  · rw [hs] at h'
    cases h'
    exact ⟨h.recordFault he, ⟨rfl, rfl, rfl, rfl, rfl, rfl, rfl, rfl, rfl⟩, rfl⟩
  · rw [hs] at h'
    have he := exec_cases h'.symm
    exact ⟨he.core_inv hv h ((CoreRegs.enabled_iff _).mp hen).1 ((fetch_ok_iff _ _).mp hf).2, he.outside⟩

end Sys2Proof.Machine
end

