-- ==== Sys2Proof/Laws/PerInstr.lean ====
section
/-! SUPPORT. The laws stated per instruction, one lemma per constructor of Instr. -/

/-- The opcode table's parameter count is the number of the instruction's slots (spec/30_encoding.md R72), and its encoding is that many
cells and one more (R70, R83). -/
def Sys2Proof.Laws.Length.Statement (i : Sys2Proof.Instr) : Prop :=
  Sys2Proof.paramCount i.opcode = some i.params.length ∧ (Sys2Proof.encode i).length = 1 + i.params.length

theorem Sys2Proof.Laws.Length.add (a b t : Sys2Proof.Param) : Sys2Proof.Laws.Length.Statement (.add a b t) := ⟨rfl, rfl⟩
theorem Sys2Proof.Laws.Length.mul (a b t : Sys2Proof.Param) : Sys2Proof.Laws.Length.Statement (.mul a b t) := ⟨rfl, rfl⟩
theorem Sys2Proof.Laws.Length.inp (t : Sys2Proof.Param) : Sys2Proof.Laws.Length.Statement (.inp t) := ⟨rfl, rfl⟩
theorem Sys2Proof.Laws.Length.out (a : Sys2Proof.Param) : Sys2Proof.Laws.Length.Statement (.out a) := ⟨rfl, rfl⟩
theorem Sys2Proof.Laws.Length.jt (a b : Sys2Proof.Param) : Sys2Proof.Laws.Length.Statement (.jt a b) := ⟨rfl, rfl⟩
theorem Sys2Proof.Laws.Length.jf (a b : Sys2Proof.Param) : Sys2Proof.Laws.Length.Statement (.jf a b) := ⟨rfl, rfl⟩
theorem Sys2Proof.Laws.Length.lt (a b t : Sys2Proof.Param) : Sys2Proof.Laws.Length.Statement (.lt a b t) := ⟨rfl, rfl⟩
theorem Sys2Proof.Laws.Length.eq (a b t : Sys2Proof.Param) : Sys2Proof.Laws.Length.Statement (.eq a b t) := ⟨rfl, rfl⟩
theorem Sys2Proof.Laws.Length.arb (a : Sys2Proof.Param) : Sys2Proof.Laws.Length.Statement (.arb a) := ⟨rfl, rfl⟩
theorem Sys2Proof.Laws.Length.halt : Sys2Proof.Laws.Length.Statement .halt := ⟨rfl, rfl⟩

theorem Sys2Proof.Param.writable_iff (p : Sys2Proof.Param) : p.writable = true ↔ p.mode ≠ .immediate := by
  obtain ⟨mode, raw⟩ := p
  cases mode <;> simp [Param.writable]

/-- The slots are the read slots and then the write slot (R72), and an instruction is well formed exactly when its write slot, if it has
one, is not Immediate (R79). -/
def Sys2Proof.Laws.Slots.Statement (i : Sys2Proof.Instr) : Prop :=
  i.params = i.readSlots ++ i.writeSlot.toList ∧ (i.wf = true ↔ ∀ p, i.writeSlot = some p → p.mode ≠ .immediate)

theorem Sys2Proof.Laws.Slots.add (a b t : Sys2Proof.Param) : Sys2Proof.Laws.Slots.Statement (.add a b t) := by
  simp [Statement, Instr.params, Instr.readSlots, Instr.writeSlot, Instr.wf, Param.writable_iff]
theorem Sys2Proof.Laws.Slots.mul (a b t : Sys2Proof.Param) : Sys2Proof.Laws.Slots.Statement (.mul a b t) := by
  simp [Statement, Instr.params, Instr.readSlots, Instr.writeSlot, Instr.wf, Param.writable_iff]
theorem Sys2Proof.Laws.Slots.inp (t : Sys2Proof.Param) : Sys2Proof.Laws.Slots.Statement (.inp t) := by
  simp [Statement, Instr.params, Instr.readSlots, Instr.writeSlot, Instr.wf, Param.writable_iff]
theorem Sys2Proof.Laws.Slots.out (a : Sys2Proof.Param) : Sys2Proof.Laws.Slots.Statement (.out a) := by
  simp [Statement, Instr.params, Instr.readSlots, Instr.writeSlot, Instr.wf]
theorem Sys2Proof.Laws.Slots.jt (a b : Sys2Proof.Param) : Sys2Proof.Laws.Slots.Statement (.jt a b) := by
  simp [Statement, Instr.params, Instr.readSlots, Instr.writeSlot, Instr.wf]
theorem Sys2Proof.Laws.Slots.jf (a b : Sys2Proof.Param) : Sys2Proof.Laws.Slots.Statement (.jf a b) := by
  simp [Statement, Instr.params, Instr.readSlots, Instr.writeSlot, Instr.wf]
theorem Sys2Proof.Laws.Slots.lt (a b t : Sys2Proof.Param) : Sys2Proof.Laws.Slots.Statement (.lt a b t) := by
  simp [Statement, Instr.params, Instr.readSlots, Instr.writeSlot, Instr.wf, Param.writable_iff]
theorem Sys2Proof.Laws.Slots.eq (a b t : Sys2Proof.Param) : Sys2Proof.Laws.Slots.Statement (.eq a b t) := by
  simp [Statement, Instr.params, Instr.readSlots, Instr.writeSlot, Instr.wf, Param.writable_iff]
theorem Sys2Proof.Laws.Slots.arb (a : Sys2Proof.Param) : Sys2Proof.Laws.Slots.Statement (.arb a) := by
  simp [Statement, Instr.params, Instr.readSlots, Instr.writeSlot, Instr.wf]
theorem Sys2Proof.Laws.Slots.halt : Sys2Proof.Laws.Slots.Statement .halt := by
  simp [Statement, Instr.params, Instr.readSlots, Instr.writeSlot, Instr.wf]
end

