-- ==== Sys2Proof/Laws/Text.lean ====
section
/-! SUPPORT. The text adapters' pieces: decimal digits read back, trimming leaves plain text, a newline ends a line. -/

namespace Sys2Proof.Machine

/-- A decimal digit character is none of the characters the adapter treats specially. -/
theorem digit_char {d : Nat} (h : d < 10) :
    digitValue (Char.ofNat ('0'.toNat + d)) = some d ∧ Char.ofNat ('0'.toNat + d) ≠ '\n' ∧
      Char.ofNat ('0'.toNat + d) ≠ '-' ∧ Char.ofNat ('0'.toNat + d) ≠ '+' ∧ Char.ofNat ('0'.toNat + d) ≠ '\r' ∧
      isBlank (Char.ofNat ('0'.toNat + d)) = false := by
  have all : ∀ d : Fin 10, digitValue (Char.ofNat ('0'.toNat + d.1)) = some d.1 ∧ Char.ofNat ('0'.toNat + d.1) ≠ '\n' ∧
      Char.ofNat ('0'.toNat + d.1) ≠ '-' ∧ Char.ofNat ('0'.toNat + d.1) ≠ '+' ∧ Char.ofNat ('0'.toNat + d.1) ≠ '\r' ∧
      isBlank (Char.ofNat ('0'.toNat + d.1)) = false := by decide
  exact all ⟨d, h⟩

/-- The character of a decimal digit. -/
def isDigitChar (c : Char) : Prop := ∃ d, d < 10 ∧ c = Char.ofNat ('0'.toNat + d)

theorem digitsFrom_append (acc : Nat) (a b : List Char) (ha : ∀ c ∈ a, isDigitChar c) :
    ∃ m, digitsFrom acc a = some m ∧ digitsFrom acc (a ++ b) = digitsFrom m b := by
  induction a generalizing acc with
  | nil => exact ⟨acc, rfl, rfl⟩
  | cons c rest ih =>
    obtain ⟨d, hd, rfl⟩ := ha c (by simp)
    obtain ⟨m, h1, h2⟩ := ih (10 * acc + d) (fun c hc => ha c (by simp [hc]))
    exact ⟨m, by simp only [digitsFrom, (digit_char hd).1, h1], by simp only [List.cons_append, digitsFrom, (digit_char hd).1, h2]⟩

/-- The digits written for a number are read back as it. -/
theorem digitsOf_spec (fuel n : Nat) (acc : List Char) (h : n < 10 ^ fuel) (hf : 0 < fuel) :
    ∃ ds, digitsOf fuel n acc = ds ++ acc ∧ ds ≠ [] ∧ (∀ c ∈ ds, isDigitChar c) ∧ digitsFrom 0 ds = some n := by
  induction fuel generalizing n acc with
  | zero => omega
  | succ fuel ih =>
    have hd : n % 10 < 10 := Nat.mod_lt _ (by omega)
    by_cases h0 : n / 10 = 0
    · refine ⟨[Char.ofNat ('0'.toNat + n % 10)], by simp [digitsOf, h0], by simp, ?_, ?_⟩
      · intro c hc
        exact ⟨_, hd, by simpa using hc⟩
      · simp only [digitsFrom, (digit_char hd).1]
        congr 1
        omega
    · have hn : n / 10 < 10 ^ fuel := by
        rw [Nat.pow_succ] at h
        omega
      have hf' : 0 < fuel := by
        rcases Nat.eq_zero_or_pos fuel with h1 | h1
        · subst h1
          simp at hn
          omega
        · exact h1
      obtain ⟨ds, e1, e2, e3, e4⟩ := ih (n / 10) (Char.ofNat ('0'.toNat + n % 10) :: acc) hn hf'
      refine ⟨ds ++ [Char.ofNat ('0'.toNat + n % 10)], ?_, by simp, ?_, ?_⟩
      · simp only [digitsOf, if_neg h0, e1]
        simp
      · intro c hc
        rcases List.mem_append.mp hc with h | h
        · exact e3 c h
        · exact ⟨_, hd, by simpa using h⟩
      · obtain ⟨m, h1, h2⟩ := digitsFrom_append 0 ds [Char.ofNat ('0'.toNat + n % 10)] e3
        rw [e4] at h1
        cases h1
        rw [h2]
        simp only [digitsFrom, (digit_char hd).1]
        congr 1
        omega

theorem dropWhile_blank_of {l : List Char} (h : ∀ c ∈ l, isBlank c = false) : l.dropWhile isBlank = l := by
  cases l with
  | nil => rfl
  | cons a rest => simp [List.dropWhile, h a (by simp)]

/-- Trimming leaves a line without blanks and carriage returns as it is. -/
theorem trimLine_of {l : List Char} (h : ∀ c ∈ l, isBlank c = false) (hr : ∀ c ∈ l, c ≠ '\r') : trimLine l = l := by
  have ht : trim l = l := by
    unfold trim
    rw [dropWhile_blank_of h, dropWhile_blank_of (fun c hc => h c (by simpa using hc)), List.reverse_reverse]
  have hd : dropCr l = l := by
    unfold dropCr
    split
    · rename_i h0
      simpa using h0.symm
    · rename_i c rest h0
      rw [if_neg]
      have hc : c ∈ l.reverse := by
        rw [h0]
        simp
      exact hr c (by simpa using hc)
  unfold trimLine
  rw [ht, hd, ht]

/-- A newline ends a line. -/
theorem linesFrom_append (cur l rest : List Char) (h : ∀ c ∈ l, c ≠ '\n') :
    linesFrom cur (l ++ '\n' :: rest) = (cur.reverse ++ l) :: linesFrom [] rest := by
  induction l generalizing cur with
  | nil => simp [linesFrom]
  | cons c l ih =>
    simp only [List.cons_append, linesFrom, if_neg (h c (by simp))]
    rw [ih _ (fun c hc => h c (by simp [hc]))]
    simp

end Sys2Proof.Machine
end

