-- ==== Sys2Proof/Tests/Slice0.lean ====
section
/-! SUPPORT. The model's own tests: the checks of WellFormed, words written out from the spec's encoding, one-step tests whose expected
results are the vectors of spec/95_test_vectors.md, and for every statement with hypotheses a concrete case that meets them. -/

namespace Sys2Proof.Machine.Tests

open Sys2Proof Sys2Proof.Machine

/-- The start state of spec/95_test_vectors.md section 0 for an image: loaded, `RUN` = 1, no input, the stream open. -/
def machine (cells : List Int) : State :=
  { State.reset with core := { CoreRegs.resetWith (cells.map wrap64) 0 with run := true } }

/-- The same with `MEM_CAPACITY` = `c`. -/
def capped (c : Nat) (cells : List Int) : State :=
  { machine cells with params := { Params.default with memCapacity := c } }

/-- The same under `OVERFLOW_MODE` = FAULT. -/
def strict (cells : List Int) : State :=
  { machine cells with params := { Params.default with overflowMode := .fault } }

/-- The same with `QUEUE_DEPTH` = 1 and one value waiting in `OUTQ`. -/
def full (cells : List Int) : State :=
  { machine cells with params := { Params.default with queueDepth := some 1 }, outq := [1#64] }

/-- The state an outcome answers. -/
def result (r : Host.Outcome State Fault Refusal) : State :=
  match r with
  | .next t => t
  | .fault _ => State.reset
  | .refused _ => State.reset

/-- A booted ring of as many cores as there are phases. -/
def ring (program : List Int) (phases : List Word) : State :=
  (bootRing program 0 phases { State.reset with params := { Params.default with ampCount := phases.length } }).getD State.reset

/-- A Position slot. -/
def pos (r : Int) : Param := ⟨.position, wrap64 r⟩

/-- An Immediate slot. -/
def imm (r : Int) : Param := ⟨.immediate, wrap64 r⟩

/-- A Relative slot. -/
def rel (r : Int) : Param := ⟨.relative, wrap64 r⟩

/-! WellFormed: each check refuses an ill-formed term (spec/30_encoding.md R79), and a write slot may be Relative. -/

theorem test_wf_add_immediate_target : (Instr.add (pos 1) (pos 2) (imm 3)).wf = false := by decide
theorem test_wf_mul_immediate_target : (Instr.mul (pos 1) (pos 2) (imm 3)).wf = false := by decide
theorem test_wf_in_immediate_target : (Instr.inp (imm 3)).wf = false := by decide
theorem test_wf_lt_immediate_target : (Instr.lt (pos 1) (pos 2) (imm 3)).wf = false := by decide
theorem test_wf_eq_immediate_target : (Instr.eq (pos 1) (pos 2) (imm 3)).wf = false := by decide
theorem test_wf_relative_target : (Instr.add (imm 1) (imm 2) (rel 3)).wf = true := by decide
theorem test_wf_out_immediate : (Instr.out (imm 3)).wf = true := by decide

/-! Decoding: words written out from `W = OP + 100*M1 + 1000*M2 + 10000*M3` (R91), digit 0 Position, 1 Immediate, 2 Relative (R73). -/

theorem test_decode_add :
    decodeCells [21101#64, 3#64, 4#64, 0#64, 99#64] = .ok (.add (imm 3) (imm 4) (rel 0), [99#64]) := by decide
theorem test_decode_mul : decodeCells [1202#64, 1#64, 2#64, 3#64] = .ok (.mul (rel 1) (imm 2) (pos 3), []) := by decide
theorem test_decode_in : decodeCells [203#64, -1#64] = .ok (.inp (rel (-1)), []) := by decide
theorem test_decode_out : decodeCells [104#64, -5#64] = .ok (.out (imm (-5)), []) := by decide
theorem test_decode_jt : decodeCells [2105#64, -4#64, -5#64] = .ok (.jt (imm (-4)) (rel (-5)), []) := by decide
theorem test_decode_jf : decodeCells [1206#64, 7#64, 14#64] = .ok (.jf (rel 7) (imm 14), []) := by decide
theorem test_decode_lt : decodeCells [20107#64, 1#64, 2#64, 3#64] = .ok (.lt (imm 1) (pos 2) (rel 3), []) := by decide
theorem test_decode_eq : decodeCells [2208#64, 1#64, 2#64, 3#64] = .ok (.eq (rel 1) (rel 2) (pos 3), []) := by decide
theorem test_decode_arb : decodeCells [209#64, -1#64] = .ok (.arb (rel (-1)), []) := by decide
theorem test_decode_halt : decodeCells [99#64] = .ok (.halt, []) := by decide

/-! Decode rejects by name: vectors V-D1, V-D4, V-D5, V-D6, V-D8, V-D10, V-D13, V-D14. -/

theorem test_decode_unknown :
    decode 0#64 (fun _ => 0#64) = .error .unknownOpcode ∧ decode 100#64 (fun _ => 0#64) = .error .unknownOpcode ∧
      decode (-99#64) (fun _ => 0#64) = .error .unknownOpcode := by decide
theorem test_decode_excess_digits :
    decode 199#64 (fun _ => 0#64) = .error .illegalMode ∧ decode 10005#64 (fun _ => 0#64) = .error .illegalMode := by decide
theorem test_decode_illegal_mode : decode 1301#64 (fun _ => 0#64) = .error .illegalMode := by decide
theorem test_decode_immediate_write :
    decode 11101#64 (fun _ => 0#64) = .error .immediateWrite ∧ decode 103#64 (fun _ => 0#64) = .error .immediateWrite := by decide

/-! One step of each instruction. -/

/-- V-A1 and V-A2: a negative sum, and WRAP at the top of `int64`. -/
theorem test_add :
    Memory.read (result (stepCore (machine [1101, -3, -4, 5, 99]))).core.mem 5 = -7#64 ∧
      (result (stepCore (machine [1101, -3, -4, 5, 99]))).core.mlen = 6 ∧
      Memory.read (result (stepCore (machine [1101, 2 ^ 63 - 1, 1, 5, 99]))).core.mem 5 = wrap64 (-(2 ^ 63)) := by decide
/-- V-A13: OVERFLOW under `OVERFLOW_MODE` = FAULT, nothing committed. -/
theorem test_add_overflow :
    (result (stepCore (strict [1101, 2 ^ 63 - 1, 1, 5, 99]))).core.faultCause = .overflow ∧
      (result (stepCore (strict [1101, 2 ^ 63 - 1, 1, 5, 99]))).core.mlen = 5 := by decide
/-- S2 and V-A9: the product over its own operand, and the one product of `int64` values that wraps by sign alone. -/
theorem test_mul :
    (result (stepCore (machine [2, 3, 0, 3, 99]))).core.image = [2#64, 3#64, 0#64, 6#64, 99#64] ∧
      Memory.read (result (stepCore (machine [1102, -(2 ^ 63), -1, 5, 99]))).core.mem 5 = wrap64 (-(2 ^ 63)) := by decide
/-- V-I1: IN overwrites its own word after fetching it. -/
theorem test_in :
    (result (stepCore { machine [3, 0, 99] with inq := [.val 42#64] })).core.image = [42#64, 0#64, 99#64] ∧
      (result (stepCore { machine [3, 0, 99] with inq := [.val 42#64] })).core.pc = 2 ∧
      (result (stepCore { machine [3, 0, 99] with inq := [.val 42#64] })).inq = [] := by decide
/-- V-I4: a malformed token faults and stays. -/
theorem test_in_malformed :
    (result (stepCore { machine [3, 0, 99] with inq := [.malformed] })).core.faultCause = .inputFormat ∧
      (result (stepCore { machine [3, 0, 99] with inq := [.malformed] })).inq = [.malformed] := by decide
/-- V-O4: OUT of a cell nothing has written, which grows `MLEN`. -/
theorem test_out :
    (result (stepCore (machine [4, 5, 99]))).outq = [0#64] ∧ (result (stepCore (machine [4, 5, 99]))).core.mlen = 6 := by decide
/-- V-O5: OUT on a full queue waits. -/
theorem test_out_full : (full [104, 2, 99]).waitOut = true ∧ result (stepCore (full [104, 2, 99])) = full [104, 2, 99] := by decide
/-- V-J2 and V-J5: taken, and untaken with a negative target. -/
theorem test_jt :
    (result (stepCore (machine [1105, 1, 7, 104, 1, 99, 0, 104, 2, 99]))).core.pc = 7 ∧
      (result (stepCore (machine [1105, 0, -1, 99]))).core.pc = 3 := by decide
/-- V-J4: the record of a taken jump to a negative target. -/
theorem test_jt_negative :
    (result (stepCore (machine [1105, 1, -1]))).core.faultCause = .jumpTargetNegative ∧
      (result (stepCore (machine [1105, 1, -1]))).core.faultAddr = -1 ∧
      (result (stepCore (machine [1105, 1, -1]))).core.faultWord = 1105#64 := by decide
/-- V-J7 and V-J8: taken on 0, untaken otherwise. -/
theorem test_jf :
    (result (stepCore (machine [1106, 0, 5, 104, 1, 99]))).core.pc = 5 ∧
      (result (stepCore (machine [1106, 3, 5, 104, 1, 99]))).core.pc = 3 := by decide
/-- V-C1, V-C2 and V-C4: signed, strict. -/
theorem test_lt :
    Memory.read (result (stepCore (machine [1107, -1, 0, 5, 99]))).core.mem 5 = 1#64 ∧
      Memory.read (result (stepCore (machine [1107, 3, 3, 0, 99]))).core.mem 0 = 0#64 ∧
      Memory.read (result (stepCore (machine [1107, 2 ^ 63 - 1, -(2 ^ 63), 0, 99]))).core.mem 0 = 0#64 := by decide
/-- V-C6: EQ over its own word. -/
theorem test_eq : (result (stepCore (machine [1108, 5, 5, 0, 99]))).core.image = [1#64, 5#64, 5#64, 0#64, 99#64] := by decide
/-- V-B1: a negative relative base is no fault. -/
theorem test_arb :
    (result (stepCore (machine [109, -5, 99]))).core.rb = -5#64 ∧ (result (stepCore (machine [109, -5, 99]))).core.pc = 2 := by
  decide
/-- V-H1: HALT leaves `PC` past its word. -/
theorem test_halt :
    (result (stepCore (machine [99]))).core.status = .halted ∧ (result (stepCore (machine [99]))).core.pc = 1 := by decide

/-! The decoder and the step as the host asks for them. -/

theorem test_table_word : decodeTableWord 64 1101 = some (.add (imm 0) (imm 0) (pos 0)) := by decide
theorem test_table_word_refused : decodeTableWord 64 98 = none := by decide

/-! Witnesses: for every statement with hypotheses, a case that meets them all. -/

theorem witness_DecodeOfEncode : (Instr.add (imm 3) (rel (-4)) (rel 0)).wf = true := by decide
theorem witness_EncodeOfDecode : decode 1206#64 (fun _ => 14#64) = .ok (.jf (rel 14) (imm 14)) := by decide
theorem witness_NegativeWordsFault :
    (machine [-99]).fetching ∧ (machine [-99]).fetchedWord.toInt < 0 := by decide
theorem witness_UnknownOpcodesFault :
    (machine [100]).fetching ∧ 0 ≤ (machine [100]).fetchedWord.toInt ∧
      (∀ c ∈ opcodeCounts, (machine [100]).fetchedWord.toNat % 100 ≠ c.1) := by decide
/-- The least word with an excess digit of a parameterless opcode. -/
theorem witness_ExcessDigitsFault :
    (machine [199]).fetching ∧ 0 ≤ (machine [199]).fetchedWord.toInt ∧ (99, 0) ∈ opcodeCounts ∧
      (machine [199]).fetchedWord.toNat % 100 = 99 ∧ 10 ^ (2 + 0) ≤ (machine [199]).fetchedWord.toNat := by decide
theorem witness_IllegalModeDigitsFault :
    (machine [1301, 0, 0, 0]).fetching ∧ 0 ≤ (machine [1301, 0, 0, 0]).fetchedWord.toInt ∧ (1, 3) ∈ opcodeCounts ∧
      (machine [1301, 0, 0, 0]).fetchedWord.toNat % 100 = 1 ∧ 3 ≤ (machine [1301, 0, 0, 0]).fetchedWord.toNat / 10 ^ (1 + 1) % 10 := by
  decide
theorem witness_ImmediateWritesFault :
    (machine [103, 5]).fetching ∧ 0 ≤ (machine [103, 5]).fetchedWord.toInt ∧ (machine [103, 5]).fetchedWord.toNat % 100 = 3 ∧
      (machine [103, 5]).fetchedWord.toNat < 10 ^ (2 + 1) ∧
      (∀ k, 1 ≤ k → k ≤ 1 → (machine [103, 5]).fetchedWord.toNat / 10 ^ (1 + k) % 10 ≤ 2) ∧
      (machine [103, 5]).fetchedWord.toNat / 10 ^ (1 + 1) % 10 = 1 := by
  refine ⟨by decide, by decide, by decide, by decide, ?_, by decide⟩
  intro k h1 h2
  have hk : k = 1 := by omega
  subst hk
  decide
theorem witness_StepRunsTheDecodedInstruction :
    (machine [1101, 100, -1, 4]).netStatus ≠ .running ∧ (machine [1101, 100, -1, 4]).fetching ∧
      decode (machine [1101, 100, -1, 4]).fetchedWord (machine [1101, 100, -1, 4]).fetchedRaw = .ok (.add (imm 100) (imm (-1)) (pos 4)) ∧
      (machine [1101, 100, -1, 4]).core.pc + 3 < (machine [1101, 100, -1, 4]).params.memCapacity := by decide

/-- Two cores that read their phase, then (core 0 the driving value) output what they read last. -/
def two : State := ring [3, 7, 4, 7, 99] [5#64, 6#64]

theorem witness_RingStepRunsTheDecodedInstruction :
    (∀ n ∈ two.nodes, n.core.status ≠ .faulted) ∧ two.netStatus = .running ∧ 1 < two.nodes.length ∧ two.ringCanStep 1 = true ∧
      (two.ringView 1).core.pc < two.params.memCapacity ∧
      decode (two.ringView 1).fetchedWord (two.ringView 1).fetchedRaw = .ok (.inp (pos 7)) ∧
      (two.ringView 1).core.pc + 1 < two.params.memCapacity := by decide
theorem witness_PlacedWordRunsFirst : decodeTableWord 64 99 = some .halt := by decide
theorem witness_OnlyResetLeavesTerminalStates :
    (result (stepCore (machine [99]))).core.status = .halted ∧
      (result (stepCore (machine [99]))).after (.host (.pushIn 1#64)) =
        .next (result ((result (stepCore (machine [99]))).after (.host (.pushIn 1#64)))) := by
  exact ⟨by decide, rfl⟩
theorem witness_OnlyResetLeavesTerminalStates_faulted :
    (result (stepCore (machine [98]))).core.status = .faulted ∧
      (result (stepCore (machine [98]))).after .step = .next (result (stepCore (machine [98]))) := by
  exact ⟨by decide, rfl⟩
theorem witness_StalledStepsChangeNothing_in : (machine [3, 0, 99]).waitIn = true := by decide
theorem witness_StalledStepsChangeNothing_out : (full [104, 2, 99]).waitOut = true := by decide
/-- Not started, halted, faulted. -/
theorem witness_StalledStepsChangeNothing_off :
    State.reset.core.run = false ∧ State.reset.core.status = .ready ∧ (result (stepCore (machine [99]))).core.status = .halted ∧
      (result (stepCore (machine [98]))).core.status = .faulted := by decide
theorem witness_FaultsArePrecise :
    (machine [98]).core.status ≠ .faulted ∧ stepCore (machine [98]) = .next (result (stepCore (machine [98]))) ∧
      (result (stepCore (machine [98]))).core.status = .faulted ∧
      (result (stepCore (machine [98]))).core.faultCause.recordsAddr = false := by
  exact ⟨by decide, rfl, by decide, by decide⟩
/-- V-M4: an operand's address below 0. -/
theorem witness_FaultsArePrecise_negative :
    (machine [1, -1, 0, 0, 99]).core.status ≠ .faulted ∧
      stepCore (machine [1, -1, 0, 0, 99]) = .next (result (stepCore (machine [1, -1, 0, 0, 99]))) ∧
      (result (stepCore (machine [1, -1, 0, 0, 99]))).core.status = .faulted ∧
      (result (stepCore (machine [1, -1, 0, 0, 99]))).core.faultCause = .negativeAddress ∧
      (result (stepCore (machine [1, -1, 0, 0, 99]))).core.faultAddr = -1 := by
  exact ⟨by decide, rfl, by decide, by decide, by decide⟩
/-- A write target, and a parameter cell, that is the first address that does not exist. -/
theorem witness_FaultsArePrecise_capacity :
    (capped 4 [1101, 1, 1, 4]).core.status ≠ .faulted ∧
      stepCore (capped 4 [1101, 1, 1, 4]) = .next (result (stepCore (capped 4 [1101, 1, 1, 4]))) ∧
      (result (stepCore (capped 4 [1101, 1, 1, 4]))).core.faultCause = .capacity ∧
      (result (stepCore (capped 4 [1101, 1, 1, 4]))).core.faultAddr = 4 ∧
      (result (stepCore (capped 3 [1101, 1, 1]))).core.faultCause = .capacity ∧
      (result (stepCore (capped 3 [1101, 1, 1]))).core.faultAddr = 3 := by
  exact ⟨by decide, rfl, by decide, by decide, by decide, by decide⟩
/-- A taken jump to the greatest target below 0. -/
theorem witness_FaultsArePrecise_target :
    (machine [1105, 1, -1]).core.status ≠ .faulted ∧
      stepCore (machine [1105, 1, -1]) = .next (result (stepCore (machine [1105, 1, -1]))) ∧
      (result (stepCore (machine [1105, 1, -1]))).core.faultCause = .jumpTargetNegative ∧
      (result (stepCore (machine [1105, 1, -1]))).core.faultAddr = -1 := by
  exact ⟨by decide, rfl, by decide, by decide⟩
/-- A committing step and a taken jump; the last cell of a small memory is the boundary of the advance. -/
theorem witness_AdvanceRule :
    (capped 3 [1105, 1, 9]).core.enabled = true ∧ fetch (capped 3 [1105, 1, 9]) = .ok (.jt (imm 1) (imm 9)) ∧
      (capped 3 [1105, 1, 9]).waitIn = false ∧ (capped 3 [1105, 1, 9]).waitOut = false ∧
      stepCore (capped 3 [1105, 1, 9]) = .next (result (stepCore (capped 3 [1105, 1, 9]))) ∧
      (result (stepCore (capped 3 [1105, 1, 9]))).core.status ≠ .faulted := by
  exact ⟨by decide, by decide, by decide, by decide, rfl, by decide⟩
theorem witness_AdvanceRule_untaken :
    (capped 3 [1105, 0, 9]).core.enabled = true ∧ fetch (capped 3 [1105, 0, 9]) = .ok (.jt (imm 0) (imm 9)) ∧
      (capped 3 [1105, 0, 9]).waitIn = false ∧ (capped 3 [1105, 0, 9]).waitOut = false ∧
      stepCore (capped 3 [1105, 0, 9]) = .next (result (stepCore (capped 3 [1105, 0, 9]))) ∧
      (result (stepCore (capped 3 [1105, 0, 9]))).core.status ≠ .faulted := by
  exact ⟨by decide, by decide, by decide, by decide, rfl, by decide⟩
/-- V-A12: a committing step that touches an address far beyond `MLEN`. -/
theorem witness_TouchedAddressesExtendTheMemory :
    (machine [1101, 7, 0, 100, 99]).core.enabled = true ∧
      fetch (machine [1101, 7, 0, 100, 99]) = .ok (.add (imm 7) (imm 0) (pos 100)) ∧
      stepCore (machine [1101, 7, 0, 100, 99]) = .next (result (stepCore (machine [1101, 7, 0, 100, 99]))) ∧
      (result (stepCore (machine [1101, 7, 0, 100, 99]))).core.status ≠ .faulted ∧
      (machine [1101, 7, 0, 100, 99]).waitIn = false ∧ (machine [1101, 7, 0, 100, 99]).waitOut = false := by
  exact ⟨by decide, by decide, rfl, by decide, by decide, by decide⟩
/-- V-M4: a step that faults in its operands. -/
theorem witness_TouchedAddressesExtendTheMemory_fault :
    (machine [1, -1, 0, 0, 99]).core.enabled = true ∧ fetch (machine [1, -1, 0, 0, 99]) = .ok (.add (pos (-1)) (pos 0) (pos 0)) ∧
      stepCore (machine [1, -1, 0, 0, 99]) = .next (result (stepCore (machine [1, -1, 0, 0, 99]))) ∧
      (result (stepCore (machine [1, -1, 0, 0, 99]))).core.status = .faulted := by
  exact ⟨by decide, by decide, rfl, by decide⟩
theorem witness_OnlyTheWriteTargetChanges :
    exec (.add (imm 3) (imm 4) (pos 5)) (machine []) = .next (result (exec (.add (imm 3) (imm 4) (pos 5)) (machine []))) ∧
      Memory.read (result (exec (.add (imm 3) (imm 4) (pos 5)) (machine []))).core.mem 5 ≠ Memory.read (machine []).core.mem 5 := by
  exact ⟨rfl, by decide⟩
theorem witness_OnlyArbWritesTheRelativeBase :
    exec .halt (machine []) = .next (result (exec .halt (machine []))) ∧ ∀ a, Instr.halt ≠ .arb a :=
  ⟨rfl, by simp⟩
theorem witness_OnlyInAndOutMoveTheQueues :
    exec (.out (imm 1)) (machine []) = .next (result (exec (.out (imm 1)) (machine []))) := rfl
theorem witness_NoInstructionLeavesItsCore : exec .halt (machine []) = .next (result (exec .halt (machine []))) := rfl
theorem witness_AddressCheck : (0 : Nat) < Params.default.memCapacity ∧ (-1 : Int) < 0 ∧ (0 : Int) ≤ 2 ^ 63 := by decide
/-- The last address that exists, in Position and Relative mode, and the first that does not. -/
theorem witness_ReadOperandsResolve :
    (wrap64 7).toInt = (7 : Nat) ∧ 7 < (capped 8 []).params.memCapacity ∧ (capped 8 []).core.rb.toInt + (wrap64 7).toInt = (7 : Nat) ∧
      checkAddr (capped 8 []).params (wrap64 8).toInt = .error ⟨.capacity, 8⟩ ∧
      checkAddr (capped 8 []).params ((capped 8 []).core.rb.toInt + (wrap64 (-1)).toInt) = .error ⟨.negativeAddress, -1⟩ := by
  decide
/-- V-M6: slot 2 faults after a readable slot 1. -/
theorem witness_OperandFaultsInSlotOrder :
    (Instr.add (imm 1) (pos (-2)) (pos 5)).wf = true ∧ (Instr.add (imm 1) (pos (-2)) (pos 5)).params[1]? = some (pos (-2)) ∧
      (pos (-2)).mode ≠ .immediate ∧ ¬ validAddr (machine []).params (effAddr (machine []).core (pos (-2))) ∧
      (machine []).readable (imm 1) := by decide
/-- V-M7: a write target one beyond the last address. -/
theorem witness_OperandFaultsInSlotOrder_target :
    (Instr.inp (pos 8)).wf = true ∧ (Instr.inp (pos 8)).params[0]? = some (pos 8) ∧
      ¬ validAddr (capped 8 []).params (effAddr (capped 8 []).core (pos 8)) := by decide
theorem witness_FetchBeyondTheCapacityFaults :
    (capped 3 [1105, 1, 3]).core.enabled = true ∧
      (result (stepCore (capped 3 [1105, 1, 3]))).core.enabled = true ∧
      (result (stepCore (capped 3 [1105, 1, 3]))).params.memCapacity ≤ (result (stepCore (capped 3 [1105, 1, 3]))).core.pc := by
  decide
/-- V-M10: the third parameter cell is the first address that does not exist. -/
theorem witness_FetchBeyondTheCapacityFaults_cell :
    (capped 3 [1101, 1, 1]).fetching ∧
      decode (capped 3 [1101, 1, 1]).fetchedWord (capped 3 [1101, 1, 1]).fetchedRaw = .ok (.add (imm 1) (imm 1) (pos 0)) ∧
      (Instr.add (imm 1) (imm 1) (pos 0)).params.length = 3 ∧ (capped 3 [1101, 1, 1]).core.pc + 3 = (capped 3 [1101, 1, 1]).params.memCapacity := by
  decide
/-- The greatest sum that fits, under FAULT; under WRAP every sum does. -/
theorem witness_AddStoresTheSum :
    (strict []).readable (imm (2 ^ 63 - 2)) ∧ (strict []).readable (imm 1) ∧ (strict []).targetable (pos 0) ∧
      (strict []).noOverflow (((strict []).operandValue (imm (2 ^ 63 - 2))).toInt + ((strict []).operandValue (imm 1)).toInt) := by
  decide
theorem witness_MulStoresTheProduct :
    (machine []).readable (imm (-(2 ^ 63))) ∧ (machine []).readable (imm (-1)) ∧ (machine []).targetable (rel 0) ∧
      (machine []).noOverflow (((machine []).operandValue (imm (-(2 ^ 63)))).toInt * ((machine []).operandValue (imm (-1))).toInt) := by
  decide
theorem witness_LtStoresTheComparison :
    (machine [7]).readable (pos 0) ∧ (machine [7]).readable (imm 7) ∧ (machine [7]).targetable (pos 0) ∧
      ((machine [7]).operandValue (imm 7)).toInt ≤ ((machine [7]).operandValue (pos 0)).toInt ∧
      ((machine [7]).operandValue (imm 6)).toInt < ((machine [7]).operandValue (pos 0)).toInt := by decide
theorem witness_EqStoresTheComparison :
    (machine [7]).readable (pos 0) ∧ (machine [7]).readable (imm 7) ∧ (machine [7]).targetable (rel 3) ∧
      (machine [7]).operandValue (pos 0) = (machine [7]).operandValue (imm 7) ∧
      (machine [7]).operandValue (pos 0) ≠ (machine [7]).operandValue (imm (-7)) := by decide
theorem witness_InStoresTheOldestToken :
    ({ machine [] with inq := [.val 2#64, .malformed] } : State).targetable (pos 9) ∧
      ({ machine [] with inq := [.val 2#64, .malformed] } : State).inq = .val 2#64 :: [.malformed] := by decide
theorem witness_InWaitsOrFaultsWithoutAValue :
    (machine []).targetable (pos 0) ∧ (machine []).inq = [] ∧ (machine []).inEos = false ∧
      ({ machine [] with inEos := true } : State).targetable (pos 0) ∧ ({ machine [] with inEos := true } : State).inq = [] ∧
      ({ machine [] with inq := [.malformed] } : State).targetable (pos 0) ∧
      ({ machine [] with inq := [.malformed] } : State).inq = .malformed :: [] := by decide
/-- The last free place of a bounded queue. -/
theorem witness_OutPushesItsValue :
    ({ full [] with outq := [] } : State).readable (rel 0) ∧
      ({ full [] with outq := [] } : State).params.queueDepth ≠ some ({ full [] with outq := [] } : State).outq.length := by decide
theorem witness_OutWaitsForRoom :
    (full []).readable (imm 2) ∧ (full []).params.queueDepth = some (full []).outq.length := by decide
/-- V-J2 and V-J5, and the least target. -/
theorem witness_JtJumpsOnNonzero :
    (machine []).readable (imm (-1)) ∧ (machine []).readable (imm 0) ∧ (machine []).operandValue (imm (-1)) ≠ 0#64 ∧
      0 ≤ ((machine []).operandValue (imm 0)).toInt ∧ (machine []).operandValue (imm 0) = 0#64 := by decide
theorem witness_JfJumpsOnZero :
    (machine [4]).readable (pos 1) ∧ (machine [4]).readable (pos 0) ∧ (machine [4]).operandValue (pos 1) = 0#64 ∧
      0 ≤ ((machine [4]).operandValue (pos 0)).toInt ∧ (machine [4]).operandValue (pos 0) ≠ 0#64 := by decide
theorem witness_NegativeJumpTargetsFault :
    (machine []).readable (imm 1) ∧ (machine []).readable (imm 0) ∧ (machine []).readable (imm (-1)) ∧
      ((machine []).operandValue (imm (-1))).toInt < 0 ∧ (machine []).operandValue (imm 1) ≠ 0#64 ∧
      (machine []).operandValue (imm 0) = 0#64 := by decide
theorem witness_ArbAddsToTheRelativeBase :
    (machine []).readable (imm (-5)) ∧ (machine []).noOverflow ((machine []).core.rb.toInt + ((machine []).operandValue (imm (-5))).toInt) := by
  decide
/-- The least sum and the one product of two `int64` values beyond it, and a relative base at the top. -/
theorem witness_OverflowFaults :
    (strict []).params.overflowMode = .fault ∧ (strict []).readable (imm (2 ^ 63 - 1)) ∧ (strict []).readable (imm 1) ∧
      (strict []).targetable (pos 0) ∧
      ¬ (strict []).noOverflow (((strict []).operandValue (imm (2 ^ 63 - 1))).toInt + ((strict []).operandValue (imm 1)).toInt) ∧
      ¬ (strict []).noOverflow (((strict []).operandValue (imm (2 ^ 63 - 1))).toInt * ((strict []).operandValue (imm 2)).toInt) ∧
      ¬ (strict []).noOverflow
          (({ strict [] with core := { (strict []).core with rb := 1#64 } } : State).core.rb.toInt +
            ((strict []).operandValue (imm (2 ^ 63 - 1))).toInt) := by decide

/-- The invariant holds of a running machine that is not the reset state. -/
theorem machine_inv : (machine [1101, -3, -4, 5, 99]).Inv where
  params := by decide
  image := by decide
  startPc := by decide
  core := ⟨by decide, by decide, by decide, by decide, by decide, by decide, by decide⟩
  inq := by decide
  outq := by decide
  net := ⟨by decide, fun n hn => by
      simp only [machine, State.reset, List.mem_replicate] at hn
      rw [hn.2]
      exact ⟨by decide, by decide, by decide, by decide, by decide, by decide, by decide⟩,
    by decide, by decide, by decide, by decide⟩

theorem witness_StepKeepsTheInvariant :
    (machine [1101, -3, -4, 5, 99]).Inv ∧
      step (machine [1101, -3, -4, 5, 99]) = .next (result (step (machine [1101, -3, -4, 5, 99]))) :=
  ⟨machine_inv, rfl⟩
theorem witness_EventsKeepTheInvariant :
    (Event.host (.pushIn 1#64) ≠ .step) ∧ (machine [1101, -3, -4, 5, 99]).Inv ∧
      (machine [1101, -3, -4, 5, 99]).after (.host (.pushIn 1#64)) =
        .next (result ((machine [1101, -3, -4, 5, 99]).after (.host (.pushIn 1#64)))) :=
  ⟨by simp, machine_inv, rfl⟩

/-- The least and the greatest cell, the greatest start position of a full memory. -/
theorem witness_LoadPlacesTheProgram :
    (hostOp (.load [-(2 ^ 63), 2 ^ 63 - 1] 1) { State.reset with params := { Params.default with memCapacity := 2 } }).isSome = true := by
  decide
/-- Each operation with a precondition, accepted; the last free place of a bounded queue, and a pop that leaves a newer value. -/
theorem witness_HostOperationsAreAcceptedOnTheirPreconditions :
    (hostOp .start State.reset).isSome = true ∧
      (hostOp (.pushIn 2#64) { full [] with inq := [] }).isSome = true ∧ (hostOp .pushMalformed { full [] with inq := [] }).isSome = true ∧
      (hostOp .popOut { machine [] with outq := [1#64, 2#64] }).isSome = true ∧ (hostOp .dumpMem State.reset).isSome = true ∧
      hostOp .dumpMem (machine []) = none := by decide
theorem witness_HostLeavesARunningCoreAlone :
    (machine []).core.enabled = true ∧ HostOp.closeIn ≠ .reset ∧
      hostOp .closeIn (machine []) = some ({ machine [] with inEos := true }, .ack) :=
  ⟨by decide, by simp, rfl⟩

/-! The ring. -/

/-- A ring whose core 1 has halted, with nothing left in its channel. -/
def ended : State :=
  { ring [99] [5#64, 6#64] with
    nodes := [⟨{ CoreRegs.resetWith [3#64, 0#64] 0 with run := true }, []⟩, ⟨{ CoreRegs.blank with status := .halted }, []⟩] }

theorem witness_RingStreamEndsWithItsProducer :
    0 < ended.nodes.length ∧ ended.nodes[(0 + ended.nodes.length - 1) % ended.nodes.length]? =
      some ⟨{ CoreRegs.blank with status := .halted }, []⟩ ∧ (ended.ringView 0).targetable (pos 0) := by decide
theorem witness_BootFillsTheChannels :
    [5#64, 6#64].length = ({ State.reset with params := { Params.default with ampCount := 2 } } : State).params.ampCount ∧
      [5#64, 6#64][0]? = some 5#64 ∧ [5#64, 6#64][1]? = some 6#64 := by decide
theorem witness_BootStartsEveryCore :
    (bootRing [3, 7, 4, 7, 99] 0 [5#64, 6#64] { State.reset with params := { Params.default with ampCount := 2 } }).isSome = true ∧
      two.netStatus = .running ∧ two.ringCanStep 0 = true := by decide
/-- A ring of one core whose channel is full with its phase and the driving value, and whose first instruction is an OUT: it settles as
deadlocked at its start (log 12). -/
def stuck : State :=
  (bootRing [104, 1, 99] 0 [5#64]
    { State.reset with params := { Params.default with ampCount := 1, queueDepth := some 2 } }).getD State.reset

theorem witness_BootStartsEveryCore_deadlock :
    (bootRing [104, 1, 99] 0 [5#64]
      { State.reset with params := { Params.default with ampCount := 1, queueDepth := some 2 } }).isSome = true ∧
      stuck.netStatus = .deadlock ∧ stuck.nodes.length = 1 ∧ stuck.ringCanStep 0 = false ∧
      (stuck.ringView 0).inq = [.val 5#64, .val 0#64] := by decide
theorem witness_EveryReadyCoreCanBeChosen :
    two.netStatus = .running ∧ 1 < two.nodes.length ∧ two.ringCanStep 0 = true ∧ two.ringCanStep 1 = true := by decide

/-- After core 0's IN its OUT is next. -/
def outNext : State := result (ringStepAt 0 two)

theorem witness_RingOutputFeedsTheNextCore :
    outNext.netStatus = .running ∧ 0 < outNext.nodes.length ∧ outNext.ringCanStep 0 = true ∧
      fetch (outNext.ringView 0) = .ok (.out (pos 7)) ∧ (outNext.ringView 0).readable (pos 7) ∧ 0 + 1 ≠ outNext.nodes.length := by
  decide
/-- The last core's OUT, whose value is the network's result. -/
theorem witness_RingOutputFeedsTheNextCore_last :
    (result (ringStepAt 1 two)).netStatus = .running ∧ (result (ringStepAt 1 two)).ringCanStep 1 = true ∧
      fetch ((result (ringStepAt 1 two)).ringView 1) = .ok (.out (pos 7)) ∧ 1 + 1 = (result (ringStepAt 1 two)).nodes.length ∧
      (result (ringStepAt 1 (result (ringStepAt 1 two)))).netResult = 6#64 := by decide
theorem witness_RingInputTakesTheOldestValue :
    two.netStatus = .running ∧ 0 < two.nodes.length ∧ two.ringCanStep 0 = true ∧ fetch (two.ringView 0) = .ok (.inp (pos 7)) ∧
      (two.ringView 0).targetable (pos 7) ∧ (two.node (upstream two.nodes.length 0)).chan = 5#64 :: [0#64] := by decide
theorem witness_RingStepsLeaveOtherCoresAlone : ringStepAt 0 two = .next (result (ringStepAt 0 two)) ∧ 1 ≠ 0 := ⟨rfl, by decide⟩

/-- Two cores whose first word is no instruction. -/
def bad : State := ring [98] [5#64, 6#64]

/-- A failed network's registers are read, but no result is reported. -/
theorem test_netReport_failed :
    (result (ringStepAt 1 bad)).netReport.failCore = 1 ∧ (result (ringStepAt 1 bad)).netReport.result = none := by decide
/-- While the network runs, `NET_RESULT` is read as it stands: the last core has output 6. -/
theorem test_netReport_running :
    (result (ringStepAt 1 (result (ringStepAt 1 two)))).netReport.netResult = 6#64 ∧
      (result (ringStepAt 1 (result (ringStepAt 1 two)))).netReport.result = none := by decide
/-- The abort: core 1 faults and core 0's `RUN` is cleared. -/
theorem witness_RingStepsLeaveOtherCoresAlone_abort :
    ringStepAt 1 bad = .next (result (ringStepAt 1 bad)) ∧ 0 ≠ 1 ∧ (result (ringStepAt 1 bad)).netStatus = .failed ∧
      (bad.node 0).core.run = true ∧ ((result (ringStepAt 1 bad)).node 0).core.run = false :=
  ⟨rfl, by decide, by decide, by decide, by decide⟩
theorem witness_AFaultFailsTheNetwork :
    bad.netStatus = .running ∧ 1 < bad.nodes.length ∧ (∀ n ∈ bad.nodes, n.core.status ≠ .faulted) ∧
      ringStepAt 1 bad = .next (result (ringStepAt 1 bad)) ∧ ((result (ringStepAt 1 bad)).node 1).core.status = .faulted :=
  ⟨by decide, by decide, by decide, rfl, by decide⟩
theorem witness_NetworkStatusAfterAStep :
    two.netStatus = .running ∧ 0 < two.nodes.length ∧ two.ringCanStep 0 = true ∧
      ringStepAt 0 two = .next (result (ringStepAt 0 two)) :=
  ⟨by decide, by decide, by decide, rfl⟩

theorem two_inv : two.Inv where
  params := by decide
  image := by decide
  startPc := by decide
  core := ⟨by decide, by decide, by decide, by decide, by decide, by decide, by decide⟩
  inq := by decide
  outq := by decide
  net := ⟨by decide, fun n hn => by
      have hc : n.core = { CoreRegs.resetWith [3#64, 7#64, 4#64, 7#64, 99#64] 0 with run := true } := by
        revert n
        decide
      rw [hc]
      exact ⟨by decide, by decide, by decide, by decide, by decide, by decide, by decide⟩,
    by decide, by decide, by decide, by decide⟩

theorem witness_RingStepsOfTwoCoresCommute :
    two.Inv ∧ two.netStatus = .running ∧ 0 < two.nodes.length ∧ 1 < two.nodes.length ∧ 0 ≠ 1 ∧
      two.ringCanStep 0 = true ∧ two.ringCanStep 1 = true ∧
      ringStepAt 0 two = .next (result (ringStepAt 0 two)) ∧ ringStepAt 1 two = .next (result (ringStepAt 1 two)) ∧
      ringStepAt 1 (result (ringStepAt 0 two)) = .next (result (ringStepAt 1 (result (ringStepAt 0 two)))) ∧
      ringStepAt 0 (result (ringStepAt 1 two)) = .next (result (ringStepAt 0 (result (ringStepAt 1 two)))) ∧
      (result (ringStepAt 1 (result (ringStepAt 0 two)))).netStatus ≠ .failed ∧
      (result (ringStepAt 0 (result (ringStepAt 1 two)))).netStatus ≠ .failed :=
  ⟨two_inv, by decide, by decide, by decide, by decide, by decide, by decide, rfl, rfl, rfl, rfl, by decide, by decide⟩

end Sys2Proof.Machine.Tests
end

section
/-! The derived wait signals (spec/10_state.md R34). -/

namespace Sys2Proof.Machine

/-- Only a targetable slot gives an address (R81). -/
theorem targetable_of_writeTarget_ok {s : State} {p : Param} {a : Nat} (h : writeTarget s p = .ok a) : s.targetable p := by
  by_contra hn
  simp [writeTarget_of_not_targetable hn] at h

/-- Only a readable slot gives a value (R80). -/
theorem readable_of_readOperand_ok {s : State} {p : Param} {o : Operand} (h : readOperand s p = .ok o) : s.readable p := by
  by_contra hn
  simp [readOperand_of_not_readable hn] at h

/-- `WAIT_IN` names an IN that waits for input: the converse of `waitIn_of_inWait`. -/
theorem inWait_of_waitIn {s : State} (h : s.waitIn = true) :
    s.core.enabled = true ∧ ∃ t, fetch s = .ok (.inp t) ∧ s.targetable t ∧ s.inq = [] ∧ s.inEos = false := by
  obtain ⟨he, hw⟩ := Bool.and_eq_true_iff.mp h
  split at hw
  next t hf =>
    split at hw
    next ht => exact ⟨he, t, hf, targetable_of_writeTarget_ok ht, by simpa using hw⟩
    next => simp at hw
  next => simp at hw

/-- `WAIT_OUT` names an OUT that waits for room: the converse of `waitOut_of_outWait`. -/
theorem outWait_of_waitOut {s : State} (h : s.waitOut = true) :
    s.core.enabled = true ∧ ∃ a, fetch s = .ok (.out a) ∧ s.readable a ∧ queueFull s.params s.outq.length = true := by
  obtain ⟨he, hw⟩ := Bool.and_eq_true_iff.mp h
  split at hw
  next a hf =>
    split at hw
    next ha => exact ⟨he, a, hf, readable_of_readOperand_ok ha, hw⟩
    next => simp at hw
  next => simp at hw

/-- Settles O16: each signal is set exactly when the instruction at `PC` waits on its queue. -/
theorem waitSignalsNameTheStalls : Obligations.WaitSignalsNameTheStalls := by
  unfold Obligations.WaitSignalsNameTheStalls
  refine ⟨fun s => ⟨fun h => ?_, ?_⟩, fun s => ⟨fun h => ?_, ?_⟩⟩
  · obtain ⟨he, hin⟩ := inWait_of_waitIn h
    obtain ⟨hready, hrun⟩ := s.core.enabled_iff.mp he
    exact ⟨hready, hrun, hin⟩
  · rintro ⟨hready, hrun, t, hf, ht, hq, ho⟩
    exact waitIn_of_inWait (s.core.enabled_iff.mpr ⟨hready, hrun⟩) hf ht hq ho
  · obtain ⟨he, a, hf, ha, hq⟩ := outWait_of_waitOut h
    obtain ⟨hready, hrun⟩ := s.core.enabled_iff.mp he
    exact ⟨hready, hrun, a, hf, ha, (queueFull_iff _ _).mp hq⟩
  · rintro ⟨hready, hrun, a, hf, ha, hq⟩
    exact waitOut_of_outWait (s.core.enabled_iff.mpr ⟨hready, hrun⟩) hf ha ((queueFull_iff _ _).mpr hq)

end Sys2Proof.Machine
end

section
/-! Reset of the standalone core (spec/10_state.md R36, spec/70_reset_and_hazards.md R220). -/

namespace Sys2Proof.Machine

/-- Every address of the image holds its cell after a reset (R59). -/
theorem read_resetWith_inside {P : List Word} {start a : Nat} (h : a < P.length) :
    P[a]? = some (Memory.read (CoreRegs.resetWith P start).mem a) := by
  have hr := Memory.read_ofImage 0 P a
  rw [Nat.zero_add] at hr
  rw [CoreRegs.resetWith_mem, hr, List.getD_eq_getElem P _ h, List.getElem?_eq_getElem h]

/-- Every address beyond the image reads 0 after a reset (R52). -/
theorem read_resetWith_beyond {P : List Word} {start a : Nat} (h : P.length ≤ a) :
    Memory.read (CoreRegs.resetWith P start).mem a = 0#64 := by
  have hr := Memory.read_ofImage 0 P a
  rw [Nat.zero_add] at hr
  rw [CoreRegs.resetWith_mem, hr, List.getD_eq_default _ _ h]

/-- Settles O46: RESET answers `State.resetCore`, whose registers are the reset values and whose memory is the image. -/
theorem resetRestoresEveryPieceOfState : Obligations.ResetRestoresEveryPieceOfState := by
  unfold Obligations.ResetRestoresEveryPieceOfState
  intro s
  refine ⟨s.resetCore, rfl, ?_, ?_, ?_⟩
  · exact fun a ha => read_resetWith_inside ha
  · exact fun a ha => read_resetWith_beyond ha
  · simp [State.resetCore]

end Sys2Proof.Machine
end

section
/-! The decoder's checks in the order of R85 (spec/30_encoding.md R75-R79), each by the word it refuses, and the words that pass all of
them (R84). -/

namespace Sys2Proof

open Sys2Proof.Machine

/-- The opcodes of the instructions that have a write slot: their last one (R72). -/
def writeOpcodes : List Nat := [1, 2, 3, 7, 8]

/-- `opcodeCounts` lists the decoder's table. -/
theorem paramCount_eq_some_iff {op n : Nat} : paramCount op = some n ↔ (op, n) ∈ opcodeCounts := by
  constructor
  · intro h
    unfold paramCount at h
    split at h <;> simp at h <;> subst h <;> decide
  · have htable : ∀ c ∈ opcodeCounts, paramCount c.1 = some c.2 := by decide
    exact htable (op, n)

theorem paramCount_eq_none {op : Nat} (h : ∀ c ∈ opcodeCounts, op ≠ c.1) : paramCount op = none := by
  cases hc : paramCount op with
  | none => rfl
  | some n => exact absurd rfl (h (op, n) (paramCount_eq_some_iff.mp hc))

/-- Slots decode exactly where every mode digit names a mode (R75). -/
theorem decodeSlots_isSome_iff {w : Nat} {raw : Nat → Word} {k n : Nat} :
    (∃ ps, decodeSlots w raw k n = some ps) ↔ ∀ j, j < n → digit w (1 + k + j) ≤ 2 := by
  constructor
  · rintro ⟨ps, hps⟩ j hj
    by_contra hd
    simp [decodeSlots_none (raw := raw) hj (by omega : 3 ≤ digit w (1 + k + j))] at hps
  · induction n generalizing k with
    | zero => exact fun _ => ⟨[], rfl⟩
    | succ n ih =>
      intro h
      obtain ⟨m, hm⟩ := Option.isSome_iff_exists.mp ((modeOfDigit_isSome _).mpr (h 0 (by omega)))
      obtain ⟨ps, hps⟩ := ih (k := k + 1) fun j hj => by
        rw [show 1 + (k + 1) + j = 1 + k + (j + 1) by omega]
        exact h (j + 1) (by omega)
      exact ⟨⟨m, raw k⟩ :: ps, by simp only [decodeSlots, show modeOfDigit (digit w (1 + k)) = some m from hm, hps]⟩

theorem Mode.digit_eq_one_iff (m : Mode) : m.digit = 1 ↔ m = .immediate := by
  cases m <;> decide

/-- The write slot is the last one, so it alone decides whether the instruction is well formed (R72, R79). -/
theorem Instr.wf_iff_last (i : Instr) :
    i.wf = true ↔ (i.opcode ∈ writeOpcodes → ∀ p, i.params.getLast? = some p → p.mode ≠ .immediate) := by
  cases i <;> simp [Instr.wf, Instr.opcode, Instr.params, writeOpcodes, Param.writable_iff]

/-- R79 in terms of the word: the write slot's mode digit is not 1. -/
theorem Instr.wf_iff_writeDigit {i : Instr} {w : Nat} {raw : Nat → Word}
    (hs : decodeSlots w raw 1 i.params.length = some i.params) :
    i.wf = true ↔ (i.opcode ∈ writeOpcodes → digit w (1 + i.params.length) ≠ 1) := by
  rw [i.wf_iff_last]
  refine imp_congr_right fun hop => ?_
  have hpos : 0 < i.params.length := by cases i <;> simp_all [Instr.opcode, Instr.params, writeOpcodes]
  obtain ⟨p, hp, hd, -⟩ := (decodeSlots_inv hs).2 (i.params.length - 1) (by omega)
  rw [show 1 + 1 + (i.params.length - 1) = 1 + i.params.length by omega] at hd
  simp [List.getLast?_eq_getElem?, hp, hd, p.mode.digit_eq_one_iff]

section Checks

variable {W : Word} {raw : Nat → Word}

/-- R77. -/
theorem decode_of_negative (h : W.toInt < 0) : decode W raw = .error .unknownOpcode := by
  simp [decode, h]

/-- R78. -/
theorem decode_of_unknownOpcode (h0 : 0 ≤ W.toInt) (hop : paramCount (W.toNat % 100) = none) :
    decode W raw = .error .unknownOpcode := by
  simp only [decode, if_neg (not_lt.mpr h0), hop]

variable {n : Nat}

/-- R76. -/
theorem decode_of_excessDigits (h0 : 0 ≤ W.toInt) (hop : paramCount (W.toNat % 100) = some n) (hx : 10 ^ (2 + n) ≤ W.toNat) :
    decode W raw = .error .illegalMode := by
  simp only [decode, if_neg (not_lt.mpr h0), hop, if_pos hx]

/-- R75, whether or not the word has excess digits too: both checks raise the same cause. -/
theorem decode_of_illegalDigit {j : Nat} (h0 : 0 ≤ W.toInt) (hop : paramCount (W.toNat % 100) = some n) (hj : j < n)
    (hd : 3 ≤ digit W.toNat (1 + 1 + j)) : decode W raw = .error .illegalMode := by
  simp only [decode, if_neg (not_lt.mpr h0), hop, decodeSlots_none hj hd, ite_self]

/-- A word that passes the checks of R75 to R78 has the fields of an instruction, and only R79 is left to decide. -/
theorem decode_of_digits (h0 : 0 ≤ W.toInt) (hop : paramCount (W.toNat % 100) = some n) (hx : W.toNat < 10 ^ (2 + n))
    (hd : ∀ j, j < n → digit W.toNat (1 + 1 + j) ≤ 2) :
    ∃ i : Instr, i.opcode = W.toNat % 100 ∧ i.params.length = n ∧ decodeSlots W.toNat raw 1 n = some i.params ∧
      decode W raw = if i.wf then .ok i else .error .immediateWrite := by
  obtain ⟨ps, hps⟩ := decodeSlots_isSome_iff (raw := raw).mpr hd
  have hlen := (decodeSlots_inv hps).1
  obtain ⟨i, hi⟩ := assembleInstr_isSome hop hlen
  obtain ⟨hparams, hopcode⟩ := assembleInstr_inv hi
  refine ⟨i, hopcode, hparams ▸ hlen, hparams ▸ hps, ?_⟩
  simp only [decode, if_neg (not_lt.mpr h0), hop, if_neg (not_le.mpr hx), hps, hi]

/-- R79, where the checks before it pass. -/
theorem decode_of_immediateWrite (h0 : 0 ≤ W.toInt) (hop : paramCount (W.toNat % 100) = some n) (hx : W.toNat < 10 ^ (2 + n))
    (hd : ∀ j, j < n → digit W.toNat (1 + 1 + j) ≤ 2) (hw : W.toNat % 100 ∈ writeOpcodes) (h1 : digit W.toNat (1 + n) = 1) :
    decode W raw = .error .immediateWrite := by
  obtain ⟨i, hopcode, rfl, hs, hdec⟩ := decode_of_digits (raw := raw) h0 hop hx hd
  have hwf : ¬ i.wf = true := fun hwf => (Instr.wf_iff_writeDigit hs).mp hwf (hopcode ▸ hw) h1
  rw [hdec, if_neg hwf]

end Checks

/-- The words that pass every check of R85, by their digits: R84 counts them. -/
abbrev LegalWord (w : Nat) : Prop :=
  ∃ c ∈ opcodeCounts, w % 100 = c.1 ∧ w < 10 ^ (2 + c.2) ∧ (∀ j, j < c.2 → digit w (1 + 1 + j) ≤ 2) ∧
    (c.1 ∈ writeOpcodes → digit w (1 + c.2) ≠ 1)

/-- The decoder accepts a word by its digits alone, whatever the parameter cells hold (R75 to R79, R82). -/
theorem decode_isOk_iff {W : Word} {raw : Nat → Word} :
    (∃ i, decode W raw = .ok i) ↔ 0 ≤ W.toInt ∧ LegalWord W.toNat := by
  constructor
  · rintro ⟨i, hi⟩
    obtain ⟨h0, hop, hx, hs, hwf⟩ := decode_inv hi
    exact ⟨h0, (i.opcode, i.params.length), paramCount_eq_some_iff.mp (paramCount_opcode i), hop, hx,
      decodeSlots_isSome_iff.mp ⟨_, hs⟩, (Instr.wf_iff_writeDigit hs).mp hwf⟩
  · rintro ⟨h0, ⟨op, n⟩, hc, hop, hx, hd, hw⟩
    have hcount : paramCount (W.toNat % 100) = some n := hop ▸ paramCount_eq_some_iff.mpr hc
    obtain ⟨i, hopcode, rfl, hs, hdec⟩ := decode_of_digits (raw := raw) h0 hcount hx hd
    have hwf : i.wf = true := (Instr.wf_iff_writeDigit hs).mpr fun hi => hw (by rwa [← hop, ← hopcode])
    exact ⟨i, by rw [hdec, if_pos hwf]⟩

/-- A word of at most five digits is the sum of its opcode and its three mode digits (R71, R91). -/
theorem word_eq_sum_digits {w : Nat} (h : w < 10 ^ 5) :
    w = w % 100 + 100 * digit w 2 + 1000 * digit w 3 + 10000 * digit w 4 := by
  simp only [digit]
  omega

theorem digit_eq_zero {w k : Nat} (h : w < 10 ^ k) : digit w k = 0 := by
  simp [digit, Nat.div_eq_of_lt h]

/-- Every digit above the opcode of a legal word is at most 2, a slot's or not. -/
theorem digit_lt_three {w n j : Nat} (hx : w < 10 ^ (2 + n)) (hd : ∀ j, j < n → digit w (1 + 1 + j) ≤ 2) :
    digit w (2 + j) < 3 := by
  rcases Nat.lt_or_ge j n with hj | hj
  · exact Nat.lt_succ_of_le (hd j hj)
  · have hpow : 10 ^ (2 + n) ≤ 10 ^ (2 + j) := Nat.pow_le_pow_right (by omega) (by omega)
    rw [digit_eq_zero (lt_of_lt_of_le hx hpow)]
    omega

/-- The list is searched over the sums that can be legal: an opcode and three digits 0 to 2. -/
theorem mem_legalWords_of_sum : ∀ c ∈ opcodeCounts, ∀ d₁ d₂ d₃ : Fin 3,
    LegalWord (c.1 + 100 * d₁ + 1000 * d₂ + 10000 * d₃) → c.1 + 100 * d₁ + 1000 * d₂ + 10000 * d₃ ∈ legalWords := by
  decide

/-- R84's list holds exactly the words that pass every check. -/
theorem legalWord_iff_mem {w : Nat} : LegalWord w ↔ w ∈ legalWords := by
  constructor
  · intro hlegal
    have ⟨⟨op, n⟩, hc, (hop : w % 100 = op), hx, hd, _⟩ := hlegal
    have hn : n ≤ 3 := paramCount_le (paramCount_eq_some_iff.mpr hc)
    have h5 : w < 10 ^ 5 := lt_of_lt_of_le hx (Nat.pow_le_pow_right (by omega) (by omega))
    have hsum : op + 100 * digit w 2 + 1000 * digit w 3 + 10000 * digit w 4 = w :=
      hop ▸ (word_eq_sum_digits h5).symm
    have hmem := mem_legalWords_of_sum (op, n) hc ⟨digit w 2, digit_lt_three (j := 0) hx hd⟩
      ⟨digit w 3, digit_lt_three (j := 1) hx hd⟩ ⟨digit w 4, digit_lt_three (j := 2) hx hd⟩
    rw [hsum] at hmem
    exact hmem hlegal
  · have hall : ∀ w ∈ legalWords, LegalWord w := by decide
    exact hall w

/-- Settles O4: the decoder accepts the words that pass its checks (`decode_isOk_iff`), which are those of the list. -/
theorem legalWordsAreTheListed99 : Obligations.LegalWordsAreTheListed99 := by
  unfold Obligations.LegalWordsAreTheListed99
  refine ⟨by decide, by decide, fun W raw => ?_, fun W raw i hi => ?_⟩
  · rw [decode_isOk_iff, legalWord_iff_mem]
    constructor
    · rintro ⟨h0, hmem⟩
      exact ⟨W.toNat, hmem, toInt_eq_toNat_of_nonneg h0⟩
    · rintro ⟨w, hmem, hw⟩
      have h0 : 0 ≤ W.toInt := by omega
      have hnat : W.toNat = w := by have := toInt_eq_toNat_of_nonneg h0; omega
      exact ⟨h0, hnat ▸ hmem⟩
  · obtain ⟨-, hop, -⟩ := decode_inv hi
    exact hop.symm

end Sys2Proof
end

section
/-! The faults a step takes at decode (spec/30_encoding.md R75-R79, spec/40_cycle.md R106). -/

namespace Sys2Proof.Machine

/-- A step at a word that does not decode is the fault of the decoder's cause, which records no address (R85, R170). -/
theorem stepCore_faultsWith_of_decode_error {s : State} {d : DecodeError} (hf : s.fetching)
    (hd : decode s.fetchedWord s.fetchedRaw = .error d) : faultsWith s (causeOfDecode d) 0 (stepCore s) := by
  obtain ⟨he, hpc⟩ := hf
  have hfetch : fetch s = .error ⟨causeOfDecode d, 0⟩ := by
    unfold fetch
    rw [checkAddr_nat hpc]
    simp only [hd]
  have hstep : stepCore s = .next (s.recordFault ⟨causeOfDecode d, 0⟩) := by
    simp only [stepCore, he, hfetch, if_true]
  have hfault := faultsWith_recordFault s ⟨causeOfDecode d, 0⟩
  rwa [← hstep, ite_self] at hfault

/-- Settles O5: the decoder's first check. -/
theorem negativeWordsFault : Obligations.NegativeWordsFault := by
  unfold Obligations.NegativeWordsFault
  intro s hf hneg
  exact stepCore_faultsWith_of_decode_error hf (decode_of_negative hneg)

/-- Settles O6: the opcode is none of the table's, so it has no parameter count. -/
theorem unknownOpcodesFault : Obligations.UnknownOpcodesFault := by
  unfold Obligations.UnknownOpcodesFault
  intro s hf h0 hop
  exact stepCore_faultsWith_of_decode_error hf (decode_of_unknownOpcode h0 (paramCount_eq_none hop))

/-- Settles O7: the check for excess digits comes before any mode digit is read. -/
theorem excessDigitsFault : Obligations.ExcessDigitsFault := by
  unfold Obligations.ExcessDigitsFault
  rintro s op n hf h0 hc rfl hx
  exact stepCore_faultsWith_of_decode_error hf (decode_of_excessDigits h0 (paramCount_eq_some_iff.mpr hc) hx)

/-- Settles O8: slot `k` is the decoder's slot `k - 1` counted from 0. -/
theorem illegalModeDigitsFault : Obligations.IllegalModeDigitsFault := by
  unfold Obligations.IllegalModeDigitsFault
  rintro s op n k hf h0 hc rfl hk hkn hd
  have hslot : 3 ≤ digit s.fetchedWord.toNat (1 + 1 + (k - 1)) := by
    rwa [show 1 + 1 + (k - 1) = 1 + k by omega]
  exact stepCore_faultsWith_of_decode_error hf
    (decode_of_illegalDigit h0 (paramCount_eq_some_iff.mpr hc) (by omega) hslot)

/-- Settles O9: with the earlier checks passed, the write slot's digit decides. -/
theorem immediateWritesFault : Obligations.ImmediateWritesFault := by
  unfold Obligations.ImmediateWritesFault
  rintro s op n hf h0 hc rfl hx hd h1
  have htable : ∀ c ∈ [(1, 3), (2, 3), (7, 3), (8, 3), (3, 1)], c ∈ opcodeCounts ∧ c.1 ∈ writeOpcodes := by decide
  obtain ⟨hcount, hwrite⟩ := htable _ hc
  have hdigits : ∀ j, j < n → digit s.fetchedWord.toNat (1 + 1 + j) ≤ 2 := fun j hj => by
    rw [Nat.add_assoc]
    exact hd (1 + j) (by omega) (by omega)
  exact stepCore_faultsWith_of_decode_error hf
    (decode_of_immediateWrite h0 (paramCount_eq_some_iff.mpr hcount) hx hdigits hwrite h1)

end Sys2Proof.Machine
end

section
/-! The resolution of a read operand (spec/30_encoding.md R80). -/

namespace Sys2Proof.Machine

/-- A slot that is not Immediate, whose address exists, gives the cell there. -/
theorem loadOperand_of_effAddr {s : State} {p : Param} {k : Nat} (ha : effAddr s.core p = k) (hk : k < s.params.memCapacity) :
    loadOperand s p = .ok ⟨Memory.read s.core.mem k, [k]⟩ := by
  simp only [loadOperand, ha, checkAddr_nat hk]

/-- A slot whose address fails its check gives the check's fault. -/
theorem loadOperand_of_checkAddr_error {s : State} {p : Param} {e : Trap} (he : checkAddr s.params (effAddr s.core p) = .error e) :
    loadOperand s p = .error e := by
  simp only [loadOperand, he]

/-- Settles O25: Position and Relative slots are loads from the address `effAddr` gives them. -/
theorem readOperandsResolve : Obligations.ReadOperandsResolve := by
  unfold Obligations.ReadOperandsResolve
  intro s r
  refine ⟨rfl, fun k ha hk => ?_, fun k ha hk => ?_, fun e he => ?_, fun e he => ?_⟩
  · exact loadOperand_of_effAddr (p := ⟨.position, r⟩) ha hk
  · exact loadOperand_of_effAddr (p := ⟨.relative, r⟩) ha hk
  · exact loadOperand_of_checkAddr_error (p := ⟨.position, r⟩) he
  · exact loadOperand_of_checkAddr_error (p := ⟨.relative, r⟩) he

end Sys2Proof.Machine
end

section
/-! The cycle of one core: what a step writes (spec/40_cycle.md R114), where it goes on (R108), and what a fault leaves (R111). -/

namespace Sys2Proof.Machine

/-- An execution leaves memory as it was, or writes one cell: the one its write slot names (R114). -/
theorem Ends.mem_cases {s t : State} {i : Instr} (he : Ends s i t) :
    t.core.mem = s.core.mem ∨
    ∃ p v, i.writeSlot = some p ∧ s.targetable p ∧ t.core.mem = Memory.write s.core.mem (s.slotAddr p) v := by
  cases he with
  | add ha hb ht | mul ha hb ht | lt ha hb ht | eq ha hb ht | inp ht => exact .inr ⟨_, _, rfl, ht, rfl⟩
  | inWait | out | outWait | jtTaken | jtUntaken | jfTaken | jfUntaken | arb | halt | fault => exact .inl rfl

/-- Settles O20: a write changes what its own address reads and no other. -/
theorem onlyTheWriteTargetChanges : Obligations.OnlyTheWriteTargetChanges := by
  unfold Obligations.OnlyTheWriteTargetChanges
  intro s t i a h hne
  rcases (exec_cases h).mem_cases with hmem | ⟨p, v, hp, ht, hmem⟩
  · exact absurd (by rw [hmem]) hne
  · refine ⟨p, hp, ht, ?_⟩
    by_contra ha
    exact hne (by rw [hmem, Memory.read_write_ne _ ha])

@[simp] theorem afterJump_core_pc (s : State) (a b : Param) (next : Nat) : (afterJump s a b next).core.pc = next := rfl

/-- An execution that neither waits nor faults goes on at the target of the jump it takes, else behind its last cell (R108). -/
theorem Ends.pc_eq {s t : State} {i : Instr} (he : Ends s i t) (hen : s.core.enabled = true) (hf : fetch s = .ok i)
    (hin : s.waitIn = false) (hout : s.waitOut = false) (hst : t.core.status ≠ .faulted) :
    (t.core.pc : Int) = (s.jumpTarget i).getD ((s.core.pc + 1 + i.params.length : Nat) : Int) := by
  cases he with
  | add | mul | lt | eq | inp | out | arb | halt => rfl
  | jtTaken ha hb hx hn => simpa [State.jumpTarget, hx] using toNat_of_nonneg hn
  | jfTaken ha hb hx hn => simpa [State.jumpTarget, hx] using toNat_of_nonneg hn
  | jtUntaken ha hb hx => simp [State.jumpTarget, hx, Instr.params, add_assoc]
  | jfUntaken ha hb hx => simp [State.jumpTarget, hx, Instr.params, add_assoc]
  | inWait ht hq ho => simp [waitIn_of_inWait hen hf ht hq ho] at hin
  | outWait ha hq => simp [waitOut_of_outWait hen hf ha hq] at hout
  | fault => exact absurd rfl hst

/-- Settles O18: the bound is the fetch's check of the last cell (R103). -/
theorem advanceRule : Obligations.AdvanceRule := by
  unfold Obligations.AdvanceRule
  intro s t i hen hf hin hout hstep hst
  have hlast := ((fetch_ok_iff s i).mp hf).2
  rw [stepCore_of_fetch hen hf] at hstep
  exact ⟨by omega, (exec_cases hstep).pc_eq hen hf hin hout hst⟩

/-- The address that taking the fault records is the one its cause is about (R170). -/
def State.recordsOffender (s : State) (e : Trap) : Prop :=
  s.offendingAddr e.cause (s.recordFault e).core.faultAddr

theorem recordsOffender_of_not_recordsAddr {s : State} {e : Trap} (h : e.cause.recordsAddr = false) : s.recordsOffender e := by
  obtain ⟨cause, x⟩ := e
  cases cause with
  | negativeAddress | capacity | jumpTargetNegative => simp [Cause.recordsAddr] at h
  | none | unknownOpcode | illegalMode | immediateWrite | inputEnd | inputFormat | overflow => rfl

/-- The fault of an operand slot records the slot's address (R80, R81). -/
theorem recordsOffender_of_slotTrap {s : State} {i : Instr} {e : Trap} (hf : fetch s = .ok i) (h : s.slotTrap i.params e) :
    s.recordsOffender e := by
  obtain ⟨p, hp, hm, hv, rfl⟩ := h
  have hop : s.operandAt (effAddr s.core p) := ⟨i, p, hf, hp, hm, rfl⟩
  rcases Int.lt_or_le (effAddr s.core p) 0 with hneg | hpos
  · rw [addrTrap, if_pos hneg]
    exact ⟨hneg, hop⟩
  · rw [addrTrap, if_neg (not_lt.mpr hpos)]
    exact ⟨not_lt.mp fun hlt => hv ⟨hpos, hlt⟩, .inr (.inr hop)⟩

/-- A fetch records the first of the instruction's cells that does not exist, or no address (R101, R103). -/
theorem recordsOffender_of_fetch_error {s : State} {e : Trap} (h : fetch s = .error e) : s.recordsOffender e := by
  rcases fetch_error_cases h with ⟨hcap, rfl⟩ | ⟨i, k, hd, hk, hkn, hcap, rfl⟩ | ⟨-, hno⟩
  · exact ⟨Int.ofNat_le.mpr hcap, .inl rfl⟩
  · exact ⟨Int.ofNat_le.mpr hcap, .inr (.inl ⟨i, k, hd, hk, hkn, rfl⟩)⟩
  · exact recordsOffender_of_not_recordsAddr hno

/-- An execution that ends in FAULTED from another status took a fault. -/
theorem Ends.faulted {s t : State} {i : Instr} (he : Ends s i t) (hf : fetch s = .ok i) (h0 : s.core.status ≠ .faulted)
    (h1 : t.core.status = .faulted) : ∃ e : Trap, t = s.recordFault e ∧ e.cause ≠ .none ∧ s.recordsOffender e := by
  cases he with
  | fault e hc hn =>
    refine ⟨e, rfl, hc, ?_⟩
    rcases hn with hslot | ⟨hjump, hneg, htarget⟩ | hno
    · exact recordsOffender_of_slotTrap hf hslot
    · obtain ⟨cause, x⟩ := e
      subst hjump
      exact ⟨hneg, i, hf, htarget⟩
    · exact recordsOffender_of_not_recordsAddr hno
  | halt => simp [afterHalt] at h1
  | add | mul | lt | eq | inp | inWait | out | outWait | jtTaken | jtUntaken | jfTaken | jfUntaken | arb => exact absurd h1 h0

/-- A step from another status to FAULTED is the taking of one fault, of the fetch or of the execution (R170). -/
theorem stepCore_faulted {s t : State} (h0 : s.core.status ≠ .faulted) (hs : stepCore s = .next t)
    (h1 : t.core.status = .faulted) : ∃ e : Trap, t = s.recordFault e ∧ e.cause ≠ .none ∧ s.recordsOffender e := by
  rcases stepCore_cases s with ⟨-, h⟩ | ⟨-, e, hf, hc, h⟩ | ⟨-, i, hf, h⟩
  · cases hs.symm.trans h
    exact absurd h1 h0
  · cases hs.symm.trans h
    exact ⟨e, rfl, hc, recordsOffender_of_fetch_error hf⟩
  · exact (exec_cases (h.symm.trans hs)).faulted hf h0 h1

/-- Settles O17: the step takes one fault (`stepCore_faulted`), and taking it writes only its record. -/
theorem faultsArePrecise : Obligations.FaultsArePrecise := by
  unfold Obligations.FaultsArePrecise
  intro s t h0 hs h1
  obtain ⟨e, rfl, hc, hrec⟩ := stepCore_faulted h0 hs h1
  exact ⟨hc, hs ▸ faultsWith_recordFault s e, hrec⟩

end Sys2Proof.Machine
end

section
/-! The end of a ring core's stream (spec/60_exceptions.md R197). -/

namespace Sys2Proof.Machine

theorem CoreRegs.terminal_iff (c : CoreRegs) : c.terminal = true ↔ c.status = .halted ∨ c.status = .faulted := by
  simp [CoreRegs.terminal]

/-- A core of the ring has an upstream core, the one at index `(i-1) mod N` (R191). -/
theorem State.getElem?_upstream {s : State} {i : Nat} (hi : i < s.nodes.length) :
    s.nodes[(i + s.nodes.length - 1) % s.nodes.length]? = some (s.node (upstream s.nodes.length i)) :=
  State.nodes_getElem? (upstream_lt (by omega))

/-- An IN with a good target on an empty queue whose stream has ended raises `INPUT_END` (R130). -/
theorem exec_inp_of_ended {s : State} {p : Param} (hp : s.targetable p) (hq : s.inq = []) (he : s.inEos = true) :
    exec (.inp p) s = .next (s.recordFault ⟨.inputEnd, 0⟩) := by
  simp [exec, execIn, writeTarget_of_targetable hp, hq, he, finish_error]

/-- Settles O50: both clauses read the one node upstream of core `i`. -/
theorem ringStreamEndsWithItsProducer : Obligations.RingStreamEndsWithItsProducer := by
  unfold Obligations.RingStreamEndsWithItsProducer
  intro s i hi
  rw [State.getElem?_upstream hi]
  constructor
  · simp [CoreRegs.terminal_iff]
  · intro n p hn hterm hempty hp
    cases hn
    have hq : (s.ringView i).inq = [] := by simp [hempty]
    have he : (s.ringView i).inEos = true := (CoreRegs.terminal_iff _).mpr hterm
    exact exec_inp_of_ended hp hq he ▸ faultsWith_recordFault _ _

end Sys2Proof.Machine
end

section
/-! The abort of the network by a core's fault (spec/60_exceptions.md R200). -/

namespace Sys2Proof.Machine

/-- After an abort no core but the faulted one has its `RUN` set, whatever its index. -/
theorem abortOthers_getD_run {i j : Nat} (nodes : List Node) (h : j ≠ i) :
    ((abortOthers i nodes).getD j Node.blank).core.run = false := by
  rw [List.getD_eq_getElem?_getD, abortOthers_getElem?]
  cases nodes[j]? with
  | none => rfl
  | some n => simp [h]

/-- Settling a ring whose only faulted core is core `i` fails the network by `i` and aborts the others (R199, R200). -/
theorem State.settle_of_faulted {s : State} {i : Nat} (hi : i < s.nodes.length) (hf : (s.node i).core.status = .faulted)
    (hothers : ∀ j n, s.nodes[j]? = some n → j ≠ i → n.core.status ≠ .faulted) :
    s.settle = { s with netStatus := .failed, netFailCore := i, nodes := abortOthers i s.nodes } := by
  rcases s.settle_cases with ⟨j, hj, hs⟩ | ⟨hnone, -⟩
  · obtain ⟨hl, hjf, -⟩ := List.findIdx?_eq_some_iff_getElem.mp hj
    have hji : j = i := by
      by_contra hne
      exact hothers j _ (List.getElem?_eq_getElem hl) hne (by simpa using hjf)
    rw [hs, hji]
  · exact absurd hf (hnone _ (List.mem_of_getElem? (State.nodes_getElem? hi)))

/-- Absorbing core `i`'s step faults no other core. -/
theorem State.ringAbsorb_not_faulted {s : State} {i : Nat} (v : State) (h : ∀ n ∈ s.nodes, n.core.status ≠ .faulted) :
    ∀ j n, (s.ringAbsorb i v).nodes[j]? = some n → j ≠ i → n.core.status ≠ .faulted := by
  intro j n hn hne
  rw [State.ringAbsorb_nodes, Node.afterStep_getElem?, Option.map_eq_some_iff] at hn
  obtain ⟨m, hm, rfl⟩ := hn
  simpa [Ne.symm hne] using h m (List.mem_of_getElem? hm)

/-- A ring step that leaves core `i` FAULTED, where none was, recorded that core's fault, failed the network by it and aborted the others. -/
theorem ringStepAt_faulted {s t : State} {i : Nat} (hi : i < s.nodes.length) (h0 : ∀ n ∈ s.nodes, n.core.status ≠ .faulted)
    (hs : ringStepAt i s = .next t) (h1 : (t.node i).core.status = .faulted) :
    (t.node i).core.faultCause ≠ .none ∧ t.netStatus = .failed ∧ t.netFailCore = i ∧ ∃ nodes, t.nodes = abortOthers i nodes := by
  have hnode : (s.node i).core.status ≠ .faulted := h0 _ (List.mem_of_getElem? (State.nodes_getElem? hi))
  rcases ringStepAt_cases i s with ⟨-, v, hv, hstep⟩ | ⟨-, hstep⟩
  · cases hs.symm.trans hstep
    have hothers := State.ringAbsorb_not_faulted (i := i) v h0
    have hkeep := State.settle_node_of_first hothers
    have hcore : ((s.ringAbsorb i v).node i).core = v.core := by simp [State.ringAbsorb_node v hi]
    rw [hkeep] at h1 ⊢
    obtain ⟨e, rfl, hc, -⟩ := stepCore_faulted hnode hv (hcore ▸ h1)
    rw [State.settle_of_faulted (by simpa using hi) h1 hothers, hcore]
    exact ⟨hc, rfl, rfl, _, rfl⟩
  · cases hs.symm.trans hstep
    exact absurd h1 hnode

/-- Settles O57: core `i` has no enabled step since it is FAULTED, and every other core since the abort cleared its `RUN`. -/
theorem aFaultFailsTheNetwork : Obligations.AFaultFailsTheNetwork := by
  unfold Obligations.AFaultFailsTheNetwork
  intro s t i _ hi h0 hs h1
  obtain ⟨hc, hst, hfail, nodes, hn⟩ := ringStepAt_faulted hi h0 hs h1
  have hrun : ∀ j, j ≠ i → (t.node j).core.run = false := by
    intro j hj
    rw [State.node, hn]
    exact abortOthers_getD_run nodes hj
  refine ⟨hst, hfail, hc, by simp [State.netReport, hst], fun j _ => hrun j, fun j => ?_⟩
  by_cases hj : j = i
  · simp [CoreRegs.enabled, hj, h1]
  · simp [CoreRegs.enabled, hrun j hj]

end Sys2Proof.Machine
end

section
/-! Decoding and encoding are inverse to each other (spec/30_encoding.md R71, R85, R91). -/

namespace Sys2Proof

/-- The scale is the weight of the whole sum of mode digits. -/
theorem modeDigits_eq_mul (ps : List Param) (c : Nat) : modeDigits ps c = c * modeDigits ps 1 := by
  induction ps generalizing c with
  | nil => rfl
  | cons p ps ih =>
    simp only [modeDigits, ih (10 * c), ih (10 * 1)]
    ring

theorem modeDigits_one_cons (p : Param) (ps : List Param) :
    modeDigits (p :: ps) 1 = p.mode.digit + 10 * modeDigits ps 1 := by
  rw [modeDigits, modeDigits_eq_mul, one_mul, mul_one]

/-- Digit `k` counted from above the lowest `j` digits. -/
theorem digit_div_pow (w j k : Nat) : digit (w / 10 ^ j) k = digit w (j + k) := by
  rw [digit, digit, Nat.div_div_eq_div_mul, pow_add]

/-- The sum of mode digits is the one number of so many digits that has them as its digits. -/
theorem eq_modeDigits_iff {m : Nat} {ps : List Param} :
    m = modeDigits ps 1 ↔ m < 10 ^ ps.length ∧ ∀ j p, ps[j]? = some p → digit m j = p.mode.digit := by
  induction ps generalizing m with
  | nil => simp [modeDigits]
  | cons p ps ih =>
    have hp : p.mode.digit ≤ 2 := p.mode.digit_le
    have hrest := ih (m := m / 10)
    have hshift : ∀ j, digit (m / 10) j = digit m (j + 1) := fun j => by
      simpa [add_comm] using digit_div_pow m 1 j
    have hlow : digit m 0 = m % 10 := by simp [digit]
    rw [modeDigits_one_cons, List.length_cons, pow_succ]
    constructor
    · intro hm
      obtain ⟨hlt, hd⟩ := hrest.mp (by omega)
      refine ⟨by omega, fun j q hq => ?_⟩
      cases j with
      | zero =>
        cases (by simpa using hq : p = q)
        omega
      | succ j => rw [← hshift, hd j q (by simpa using hq)]
    · rintro ⟨hlt, hd⟩
      have h0 := hd 0 p rfl
      have hdiv := hrest.mpr ⟨by omega, fun j q hq => by rw [hshift, hd (j + 1) q (by simpa using hq)]⟩
      omega

theorem Instr.opcode_lt (i : Instr) : i.opcode < 100 := by
  cases i <;> simp [Instr.opcode]

theorem Instr.word_eq (i : Instr) : i.word = i.opcode + 100 * modeDigits i.params 1 := by
  rw [Instr.word, modeDigits_eq_mul]

/-- A number is an instruction's word exactly when it has the opcode below and the mode digits above, and no digit more (R71, R76). -/
theorem eq_word_iff {w : Nat} {i : Instr} :
    w = i.word ↔ w % 100 = i.opcode ∧ w < 10 ^ (2 + i.params.length) ∧
      ∀ j p, i.params[j]? = some p → digit w (1 + 1 + j) = p.mode.digit := by
  have hop := i.opcode_lt
  have hdigits := eq_modeDigits_iff (m := w / 100) (ps := i.params)
  have hshift : ∀ j, digit (w / 100) j = digit w (1 + 1 + j) := fun j => digit_div_pow w 2 j
  simp only [hshift] at hdigits
  rw [i.word_eq, pow_add]
  constructor
  · intro hw
    obtain ⟨hlt, hd⟩ := hdigits.mp (by omega)
    exact ⟨by omega, by omega, hd⟩
  · rintro ⟨hmod, hlt, hd⟩
    have := hdigits.mpr ⟨by omega, hd⟩
    omega

theorem Instr.toNat_word (i : Instr) : (BitVec.ofNat 64 i.word).toNat = i.word := by
  have := i.word_lt
  rw [BitVec.toNat_ofNat]
  omega

theorem Instr.toInt_word_nonneg (i : Instr) : 0 ≤ (BitVec.ofNat 64 i.word).toInt := by
  have := i.word_lt
  rw [BitVec.toInt_eq_toNat_cond, i.toNat_word]
  split <;> omega

/-- An instruction's word decodes to it where its parameter cells hold its raw values. -/
theorem decode_word {i : Instr} {raw : Nat → Word} (hw : i.wf = true)
    (hraw : ∀ j p, i.params[j]? = some p → raw (1 + j) = p.raw) : decode (BitVec.ofNat 64 i.word) raw = .ok i := by
  obtain ⟨hop, hlt, hd⟩ := eq_word_iff.mp (rfl : i.word = i.word)
  refine decode_of_fields i.toInt_word_nonneg ?_ ?_ ?_ hw
  · rwa [i.toNat_word]
  · rwa [i.toNat_word]
  · rw [i.toNat_word]
    exact decodeSlots_of_digits _ _ fun j p hp => ⟨hd j p hp, hraw j p hp⟩

/-- Settles O2: the fields of `Instr.word` are those the decoder reads, and what follows the cells is neither read nor dropped. -/
theorem decodeOfEncode : Obligations.DecodeOfEncode := by
  unfold Obligations.DecodeOfEncode
  intro i rest hw
  have hdec : decode (BitVec.ofNat 64 i.word) (fun k => (encode i ++ rest).getD k 0#64) = .ok i := by
    refine decode_word hw fun j p hp => ?_
    obtain ⟨hj, rfl⟩ := List.getElem?_eq_some_iff.mp hp
    simp [encode, Nat.add_comm 1 j, List.getElem?_append, hj]
  have hlen : (encode i).length = i.length := by simp [encode, Nat.add_comm]
  have hhead : (encode i ++ rest).getD 0 0#64 = BitVec.ofNat 64 i.word := rfl
  simp only [decodeCells, hhead, hdec, ← hlen, List.drop_left]

/-- Settles O3: the decoder's checks leave the word no digit but those of `Instr.word`. -/
theorem encodeOfDecode : Obligations.EncodeOfDecode := by
  unfold Obligations.EncodeOfDecode
  intro W raw i h
  obtain ⟨-, hop, hlt, hs, hw⟩ := decode_inv h
  have hslots := (decodeSlots_inv hs).2
  have hword : W.toNat = i.word := by
    refine eq_word_iff.mpr ⟨hop, hlt, fun j p hp => ?_⟩
    obtain ⟨q, hq, hd, -⟩ := hslots j (List.getElem?_eq_some_iff.mp hp).1
    cases hp.symm.trans hq
    exact hd
  have hraws : i.params.map (·.raw) = (List.range i.params.length).map (fun k => raw (k + 1)) := by
    refine List.ext_getElem (by simp) fun j hj _ => ?_
    obtain ⟨p, hp, -, hr⟩ := hslots j (by simpa using hj)
    obtain ⟨hj', hp⟩ := List.getElem?_eq_some_iff.mp hp
    simp [hp, hr, Nat.add_comm]
  exact ⟨hw, by rw [encode, ← hword, BitVec.ofNat_toNat, BitVec.setWidth_eq, hraws]⟩

end Sys2Proof
end

section
/-! Loading a program and building a ring (spec/60_exceptions.md R190-R194, R204; spec/70_reset_and_hazards.md R220, R224). -/

namespace Sys2Proof.Machine

/-! A loaded program. -/

theorem loadable_iff {p : Params} {P : List Int} {k : Int} :
    loadable p P k = true ↔
      0 ≤ k ∧ k < p.memCapacity ∧ P.length ≤ p.memCapacity ∧ ∀ x ∈ P, -(2 ^ 63) ≤ x ∧ x < 2 ^ 63 := by
  simp [loadable, fitsWord_iff, and_assoc]

/-- The entries of a program LOAD accepts are kept as they are. -/
theorem map_toInt_map_wrap64 {P : List Int} (h : ∀ x ∈ P, -(2 ^ 63) ≤ x ∧ x < 2 ^ 63) : (P.map wrap64).map (·.toInt) = P := by
  rw [List.map_map]
  calc P.map ((·.toInt) ∘ wrap64) = P.map id := List.map_congr_left fun x hx => toInt_wrap64 ((fitsWord_iff x).mpr (h x hx))
    _ = P := List.map_id P

/-- Every entry of the program is read at its index after a reset with it (R59). -/
theorem toInt_read_resetWith {P : List Int} {start a : Nat} {x : Int} (h : ∀ x ∈ P, -(2 ^ 63) ≤ x ∧ x < 2 ^ 63)
    (hx : P[a]? = some x) : (Memory.read (CoreRegs.resetWith (P.map wrap64) start).mem a).toInt = x := by
  obtain ⟨ha, rfl⟩ := List.getElem?_eq_some_iff.mp hx
  have hcell := read_resetWith_inside (start := start) (P := P.map wrap64) (by simpa using ha)
  rw [List.getElem?_map, List.getElem?_eq_getElem ha, Option.map_some, Option.some.injEq] at hcell
  rw [← hcell]
  exact toInt_wrap64 ((fitsWord_iff _).mpr (h _ (List.getElem_mem ha)))

/-- Settles O47: LOAD is a reset with the program's cells. -/
theorem loadPlacesTheProgram : Obligations.LoadPlacesTheProgram := by
  unfold Obligations.LoadPlacesTheProgram
  intro s t P k r h
  obtain ⟨hacc, ht⟩ := Option.ite_none_right_eq_some.mp h
  cases ht
  obtain ⟨-, hload⟩ := Bool.and_eq_true_iff.mp hacc
  obtain ⟨hk, -, -, hfit⟩ := loadable_iff.mp hload
  refine ⟨fun a x hx => toInt_read_resetWith hfit hx, fun a ha => read_resetWith_beyond (by simpa using ha), by simp [State.load],
    Int.toNat_of_nonneg hk, rfl, rfl, rfl, rfl, rfl, rfl, rfl, map_toInt_map_wrap64 hfit, Int.toNat_of_nonneg hk, rfl⟩

/-! The ring before and after its cores are started. -/

/-- The ring after the steps R224 (1) to (3): reset, its phases and its driving value in the channels. -/
def State.ringPrepared (s : State) (P : List Word) (start : Nat) (phases : List Word) : State :=
  ((s.ringReset P start).ringPhases 0 phases).ringDrive

/-- Every core's `RUN` set and the network running, before its status settles: R224 (4). -/
def State.ringSwitchedOn (s : State) : State :=
  { s with
    nodes := s.nodes.map (fun n => { n with core := { n.core with run := true } })
    netStatus := .running }

theorem State.ringBoot_eq (s : State) (P : List Word) (start : Nat) (phases : List Word) :
    s.ringBoot P start phases = (s.ringPrepared P start phases).ringSwitchedOn.settle := rfl

section Prepared

variable (s : State) (P : List Word) (start : Nat) {phases : List Word} {i : Nat}

@[simp] theorem State.ringPrepared_length : (s.ringPrepared P start phases).nodes.length = s.params.ampCount := by
  simp [State.ringPrepared]

/-- Nothing outside the ring is prepared. -/
theorem State.ringPrepared_rest :
    s.ringPrepared P start phases = { s with
      nodes := (s.ringPrepared P start phases).nodes, netStatus := .idle, netResult := 0#64, netResultValid := false,
      netFailCore := 0 } := by
  rw [State.ringPrepared, State.ringPhases_rest]
  rfl

/-- Every core of a prepared ring is reset with its own copy of the program (R190). -/
theorem State.ringPrepared_core (hi : i < s.params.ampCount) :
    ((s.ringPrepared P start phases).node i).core = CoreRegs.resetWith P start := by
  rw [State.ringPrepared, State.ringDrive_node_core, State.ringPhases_node_core, State.ringReset_node _ _ _ hi]

/-- The channel core `i` reads holds its phase, and core 0's the driving value after it (R192, R193). -/
theorem State.ringPrepared_chan {v : Word} (hl : phases.length = s.params.ampCount) (hv : phases[i]? = some v) :
    ((s.ringPrepared P start phases).node (upstream s.params.ampCount i)).chan = if i = 0 then [v, 0#64] else [v] := by
  have hi : i < s.params.ampCount := hl ▸ (List.getElem?_eq_some_iff.mp hv).1
  have hup : upstream s.params.ampCount i < s.params.ampCount := upstream_lt (by omega)
  have hlast : s.params.ampCount - 1 = upstream s.params.ampCount i ↔ i = 0 := by
    rw [upstream_eq hi]
    split <;> omega
  have hphase := State.ringPhases_chan (s.ringReset P start) 0 phases (by simp [hl]) i (by simpa using hi)
  rw [State.ringReset_length, State.ringReset_node _ _ _ hup] at hphase
  simp only [State.ringPrepared, State.ringDrive, State.ringPush_node, State.ringPhases_length, State.ringReset_length, hup,
    and_true, hlast]
  by_cases h0 : i = 0
  · simp_all [Config.driveValue]
  · simp_all

theorem State.ringPrepared_inq {v : Word} (hl : phases.length = s.params.ampCount) (hv : phases[i]? = some v) :
    ((s.ringPrepared P start phases).ringView i).inq = if i = 0 then [.val v, .val 0#64] else [.val v] := by
  rw [State.ringView_inq, State.ringPrepared_length, State.ringPrepared_chan s P start hl hv]
  split <;> rfl

end Prepared

/-- Settles O51: the state of the statement is `State.ringPrepared`. -/
theorem bootFillsTheChannels : Obligations.BootFillsTheChannels := by
  unfold Obligations.BootFillsTheChannels
  intro s P start phases i v hl hv
  exact State.ringPrepared_inq s P start hl hv

@[simp] theorem State.ringSwitchedOn_length (s : State) : s.ringSwitchedOn.nodes.length = s.nodes.length := by
  simp [State.ringSwitchedOn]

theorem State.ringSwitchedOn_node {s : State} {i : Nat} (hi : i < s.nodes.length) :
    s.ringSwitchedOn.node i = ⟨{ (s.node i).core with run := true }, (s.node i).chan⟩ := by
  simp [State.ringSwitchedOn, State.node, hi]

/-- Starting the cores leaves their input as it is. -/
theorem State.ringSwitchedOn_inq {s : State} {i : Nat} (hi : i < s.nodes.length) :
    (s.ringSwitchedOn.ringView i).inq = (s.ringView i).inq := by
  rw [State.ringView_inq, State.ringView_inq, State.ringSwitchedOn_length, State.ringSwitchedOn_node (upstream_lt (by omega))]

/-- The core every node of a started ring has. -/
theorem State.ringSwitchedOn_prepared_core {s : State} {P : List Word} {start : Nat} {phases : List Word} {n : Node}
    (hn : n ∈ (s.ringPrepared P start phases).ringSwitchedOn.nodes) :
    n.core = { CoreRegs.resetWith P start with run := true } := by
  obtain ⟨i, hi⟩ := List.mem_iff_getElem?.mp hn
  have hlt := (List.getElem?_eq_some_iff.mp hi).1
  rw [State.ringSwitchedOn_length] at hlt
  rw [State.nodes_getElem? (by simpa using hlt), State.ringSwitchedOn_node hlt,
    State.ringPrepared_core s P start (by simpa using hlt)] at hi
  rw [← Option.some.inj hi]

/-- Settling a running network all of whose cores are ready leaves it running, or deadlocked where no core may step (R199, R201). -/
theorem State.settle_of_ready {s : State} (hne : s.nodes ≠ []) (hready : ∀ n ∈ s.nodes, n.core.status = .ready) :
    s.settle = { s with netStatus := if ∃ i < s.nodes.length, s.ringCanStep i = true then s.netStatus else .deadlock } := by
  rcases s.settle_cases with ⟨j, hj, -⟩ | ⟨-, st, hs, hst⟩
  · obtain ⟨hl, hf, -⟩ := List.findIdx?_eq_some_iff_getElem.mp hj
    simp [hready _ (List.getElem_mem hl)] at hf
  · obtain ⟨n, hn⟩ := List.exists_mem_of_ne_nil _ hne
    rw [hs]
    rcases hst with ⟨hall, -⟩ | ⟨-, hc, rfl⟩ | ⟨-, hc, rfl⟩
    · exact absurd (hall n hn) (by simp [hready n hn])
    · rw [if_pos hc]
    · rw [if_neg]
      rintro ⟨i, hi, hstep⟩
      simp [hc i hi] at hstep

/-- What an accepted boot needs (R190 to R192; log 13). -/
theorem bootRing_eq_some {s t : State} {P : List Int} {k : Int} {phases : List Word} (h : bootRing P k phases s = some t) :
    1 ≤ s.params.ampCount ∧ phases.length = s.params.ampCount ∧ queueRoom s.params 1 = true ∧ loadable s.params P k = true ∧
      t = s.ringBoot (P.map wrap64) k.toNat phases := by
  obtain ⟨hacc, ht⟩ := Option.ite_none_right_eq_some.mp h
  simp only [State.bootable, Bool.and_eq_true, decide_eq_true_eq] at hacc
  obtain ⟨⟨⟨⟨-, hN⟩, hl⟩, hroom⟩, hload⟩ := hacc
  exact ⟨hN, hl, hroom, hload, (Option.some.inj ht).symm⟩

/-- Settles O52: a started ring's cores are ready, so settling changes the status alone (`State.settle_of_ready`). -/
theorem bootStartsEveryCore : Obligations.BootStartsEveryCore := by
  unfold Obligations.BootStartsEveryCore
  intro s t P k phases h
  obtain ⟨hN, hl, -, hload, rfl⟩ := bootRing_eq_some h
  obtain ⟨hk, -, -, hfit⟩ := loadable_iff.mp hload
  have hlen : (s.ringPrepared (P.map wrap64) k.toNat phases).ringSwitchedOn.nodes.length = s.params.ampCount := by simp
  have hcore := fun n => State.ringSwitchedOn_prepared_core (s := s) (P := P.map wrap64) (start := k.toNat) (phases := phases) (n := n)
  have hsettle := State.settle_of_ready (s := (s.ringPrepared (P.map wrap64) k.toNat phases).ringSwitchedOn)
    (List.ne_nil_of_length_pos (by omega)) (fun n hn => by rw [hcore n hn]; rfl)
  rw [State.ringBoot_eq, hsettle]
  refine ⟨hlen, fun n hn => ?_, fun i v hv => ?_, rfl, ?_⟩
  · rw [hcore n hn]
    exact ⟨rfl, rfl, Int.toNat_of_nonneg hk, by simp, rfl, rfl, rfl, rfl, rfl,
      fun a x hx => toInt_read_resetWith (start := k.toNat) hfit hx,
      fun a ha => read_resetWith_beyond (start := k.toNat) (by simpa using ha)⟩
  · have hi : i < s.params.ampCount := hl ▸ (List.getElem?_eq_some_iff.mp hv).1
    exact (State.ringSwitchedOn_inq (by simpa using hi)).trans (State.ringPrepared_inq s _ _ hl hv)
  · rw [State.ringSwitchedOn, State.ringPrepared_rest]
    simp

end Sys2Proof.Machine
end

section
/-! The ring's step as a change of its nodes: what a core's step takes from its upstream channel and adds to its own
(spec/60_exceptions.md R191, R195-R199). -/

namespace Sys2Proof.Machine

/-! The change a ring step makes. -/

/-- What a step of a ring core changes: its core, the number of values it takes, and the values it outputs. -/
structure RingMove where
  core : CoreRegs
  popped : Nat
  pushed : List Word

/-- Node `k` of a ring of `n` after core `i` made the move. -/
def RingMove.onNode (d : RingMove) (n i k : Nat) (m : Node) : Node :=
  ⟨if i = k then d.core else m.core,
   (if upstream n i = k then m.chan.drop d.popped else m.chan) ++ (if i = k then d.pushed else [])⟩

/-- The ring after core `i` made the move; the last core's output is the network's result (R198). -/
def State.ringApply (s : State) (i : Nat) (d : RingMove) : State :=
  { s with
    nodes := s.nodes.mapIdx (d.onNode s.nodes.length i)
    netResult := if i + 1 = s.nodes.length then d.pushed.headD s.netResult else s.netResult
    netResultValid := if i + 1 = s.nodes.length then !d.pushed.isEmpty || s.netResultValid else s.netResultValid }

/-- The move of core `i` from its view to the state its step leaves. -/
def State.moveTo (s : State) (i : Nat) (v : State) : RingMove :=
  ⟨v.core, (s.ringView i).inq.length - v.inq.length, v.outq.drop (s.ringView i).outq.length⟩

/-- Absorbing a step is applying its move. -/
theorem State.ringAbsorb_eq (s : State) (i : Nat) (v : State) : s.ringAbsorb i v = s.ringApply i (s.moveTo i v) := by
  have hnodes : (s.ringAbsorb i v).nodes = (s.ringApply i (s.moveTo i v)).nodes := by
    refine List.ext_getElem? fun k => ?_
    rw [State.ringAbsorb_nodes, Node.afterStep_getElem?]
    simp only [State.ringApply, List.getElem?_mapIdx]
    rfl
  have hresult : ((s.ringAbsorb i v).netResult, (s.ringAbsorb i v).netResultValid) =
      ((s.ringApply i (s.moveTo i v)).netResult, (s.ringApply i (s.moveTo i v)).netResultValid) := by
    rw [State.ringAbsorb_result]
    simp only [State.ringApply, State.moveTo, State.ringView_outq]
    cases v.outq.drop (s.node i).chan.length <;> split <;> simp
  obtain ⟨hr, hv⟩ := Prod.mk.inj hresult
  rw [State.ringAbsorb_rest, hnodes, hr, hv]
  rfl

@[simp] theorem State.ringApply_length (s : State) (i : Nat) (d : RingMove) : (s.ringApply i d).nodes.length = s.nodes.length := by
  simp [State.ringApply]

/-- Beyond the ring there is no node. -/
theorem State.node_of_le {s : State} {k : Nat} (h : s.nodes.length ≤ k) : s.node k = Node.blank := by
  simp [State.node, h]

theorem State.ringApply_node {s : State} {i : Nat} (d : RingMove) (hi : i < s.nodes.length) (k : Nat) :
    (s.ringApply i d).node k = d.onNode s.nodes.length i k (s.node k) := by
  rcases Nat.lt_or_ge k s.nodes.length with hk | hk
  · simp [State.ringApply, State.node, List.getD_eq_getElem?_getD, hk]
  · have hup : upstream s.nodes.length i ≠ k := by
      have : upstream s.nodes.length i < s.nodes.length := upstream_lt (by omega)
      omega
    rw [State.node_of_le hk, State.node_of_le (by simpa using hk), RingMove.onNode, if_neg (by omega), if_neg hup, if_neg (by omega)]
    rfl

/-- A node after a move is one before it, moved. -/
theorem State.mem_ringApply {s : State} {i : Nat} {d : RingMove} {m : Node} (h : m ∈ (s.ringApply i d).nodes) :
    ∃ k, k < s.nodes.length ∧ m = d.onNode s.nodes.length i k (s.node k) := by
  obtain ⟨k, hk, rfl⟩ := List.mem_mapIdx.mp h
  exact ⟨k, hk, by rw [State.node_eq hk]⟩

theorem State.node_mem {s : State} {k : Nat} (hk : k < s.nodes.length) : s.node k ∈ s.nodes :=
  List.mem_of_getElem? (State.nodes_getElem? hk)

/-- A step outputs nothing, or one value into a channel with room, and then it takes none. -/
theorem State.moveTo_cases {s v : State} {i : Nat} (hv : stepCore (s.ringView i) = .next v) :
    (s.moveTo i v).pushed = [] ∨
      ((s.moveTo i v).popped = 0 ∧ queueFull s.params (s.node i).chan.length = false ∧ ∃ x, (s.moveTo i v).pushed = [x]) := by
  rcases stepCore_queues hv with ⟨-, ho⟩ | ⟨x, -, ho⟩ | ⟨x, hin, ho, hroom⟩
  · exact .inl (by simp [State.moveTo, ho])
  · exact .inl (by simp [State.moveTo, ho])
  · exact .inr ⟨by simp [State.moveTo, hin], hroom, x, by simp [State.moveTo, ho]⟩

/-- A ring step by a core that may step is its core's, absorbed and settled. -/
theorem ringStepAt_of_stepCore {s v : State} {i : Nat} (hr : s.netStatus = .running) (hi : i < s.nodes.length)
    (hcan : s.ringCanStep i = true) (hv : stepCore (s.ringView i) = .next v) :
    ringStepAt i s = .next (s.ringAbsorb i v).settle := by
  rcases ringStepAt_cases i s with ⟨-, v', hv', hstep⟩ | ⟨hno, -⟩
  · cases hv.symm.trans hv'
    exact hstep
  · exact absurd ⟨hr, hi, hcan⟩ hno

end Sys2Proof.Machine
end

section
/-! The invariant of the whole machine, kept by every event (spec/10_state.md R22, R29-R33, R38; spec/60_exceptions.md R194-R201). -/

namespace Sys2Proof.Machine

/-! A step of the standalone core. -/

/-- What the ring's invariant speaks of. -/
theorem State.NetInv.congr {s t : State} (h : s.NetInv) (hp : t.params = s.params) (hn : t.nodes = s.nodes)
    (hst : t.netStatus = s.netStatus) (hv : t.netResultValid = s.netResultValid) (hf : t.netFailCore = s.netFailCore) :
    t.NetInv := by
  constructor
  · rw [hn, hp]; exact h.count
  · rw [hn, hp]; exact h.cores
  · rw [hn, hp]; exact h.channels
  · rw [hf, hp]; exact h.failCore
  · rw [hst, hn]; exact h.running
  · rw [hst, hv, hn]; exact h.finished

/-- The invariant of a state that differs in the standalone core and its queues only. -/
theorem State.Inv.of_sameOutside {s t : State} (h : s.Inv) (ho : sameOutside s t) (hc : CoreRegs.Inv s.params t.core)
    (hi : queueFits s.params t.inq.length = true) (hq : queueFits s.params t.outq.length = true) : t.Inv := by
  obtain ⟨hp, him, hpc, hn, hst, -, hv, hf, -⟩ := ho
  constructor
  · rw [hp]; exact h.params
  · rw [him, hp]; exact h.image
  · rw [hpc, hp]; exact h.startPc
  · rw [hp]; exact hc
  · rw [hp]; exact hi
  · rw [hp]; exact hq
  · exact h.net.congr hp hn hst hv hf

/-- A step takes from the input queue and adds to the output queue, the latter only where there is room. -/
theorem stepCore_queueFits {s t : State} (hs : stepCore s = .next t) (hq : queueFits s.params s.outq.length = true) :
    t.inq.length ≤ s.inq.length ∧ queueFits s.params t.outq.length = true := by
  rcases stepCore_queues hs with ⟨hi, ho⟩ | ⟨v, hi, ho⟩ | ⟨v, hi, ho, hroom⟩
  · rw [hi, ho]
    exact ⟨le_rfl, hq⟩
  · rw [hi, ho]
    exact ⟨by simp, hq⟩
  · rw [hi, ho, List.length_append]
    exact ⟨le_rfl, queueFits_push hq hroom⟩

theorem State.Inv.stepCore {s t : State} (h : s.Inv) (hs : stepCore s = .next t) : t.Inv := by
  obtain ⟨hc, ho, -⟩ := stepCore_core_inv h.params h.core hs
  obtain ⟨hi, hq⟩ := stepCore_queueFits hs h.outq
  exact h.of_sameOutside ho hc (queueFits_mono h.inq hi) hq

/-! A ring step and the start of a ring. -/

/-- The invariant of a network that runs and whose status is not settled yet: a core may have just faulted. -/
structure State.Unsettled (s : State) : Prop where
  count : s.nodes.length = s.params.ampCount
  cores : ∀ n ∈ s.nodes, CoreRegs.Inv s.params n.core
  channels : ∀ n ∈ s.nodes, queueFits s.params n.chan.length = true
  failCore : s.netFailCore < s.params.ampCount
  isRunning : s.netStatus = .running
  started : ∀ n ∈ s.nodes, n.core.run = true

/-- An abort changes a node at most in its `RUN`. -/
theorem mem_abortOthers {j : Nat} {nodes : List Node} {n : Node} (h : n ∈ abortOthers j nodes) :
    ∃ m ∈ nodes, ∃ b, n = ⟨{ m.core with run := b }, m.chan⟩ := by
  obtain ⟨i, hi⟩ := List.mem_iff_getElem?.mp h
  rw [abortOthers_getElem?, Option.map_eq_some_iff] at hi
  obtain ⟨m, hm, rfl⟩ := hi
  refine ⟨m, List.mem_of_getElem? hm, if i = j then m.core.run else false, ?_⟩
  split <;> rfl

/-- Settling restores the ring's invariant (R199, R200). -/
theorem State.Unsettled.settle {s : State} (h : s.Unsettled) : s.settle.NetInv := by
  rcases s.settle_cases with ⟨j, hj, hs⟩ | ⟨hnf, st, hs, hst⟩
  · have hjlt : j < s.params.ampCount := h.count ▸ (List.findIdx?_eq_some_iff_getElem.mp hj).1
    rw [hs]
    refine ⟨(abortOthers_length ..).trans h.count, fun n hn => ?_, fun n hn => ?_, hjlt, by simp, by simp⟩
    · obtain ⟨m, hm, b, rfl⟩ := mem_abortOthers hn
      exact (h.cores m hm).withRun b
    · obtain ⟨m, hm, b, rfl⟩ := mem_abortOthers hn
      exact h.channels m hm
  · rw [hs]
    refine ⟨h.count, h.cores, h.channels, h.failCore, fun _ n hn => ⟨h.started n hn, hnf n hn⟩, fun hdone => ?_⟩
    replace hdone : st = .done := hdone
    rcases hst with ⟨hall, rfl⟩ | ⟨-, -, rfl⟩ | ⟨-, -, rfl⟩
    · exact ⟨by by_contra hv; simp [hv] at hdone, hall⟩
    · simp [h.isRunning] at hdone
    · simp at hdone

/-- What a ring core takes leaves its upstream channel shorter, and what it adds finds room in its own (R31, R33). -/
theorem State.ringApply_channels {s v : State} {i : Nat} (hv : Machine.stepCore (s.ringView i) = .next v)
    (h : ∀ n ∈ s.nodes, queueFits s.params n.chan.length = true) :
    ∀ n ∈ (s.ringApply i (s.moveTo i v)).nodes, queueFits s.params n.chan.length = true := by
  intro n hn
  obtain ⟨k, hk, rfl⟩ := State.mem_ringApply hn
  have hfit := h _ (State.node_mem hk)
  rcases State.moveTo_cases hv with hpush | ⟨hpop, hroom, x, hpush⟩
  · refine queueFits_mono hfit ?_
    simp only [RingMove.onNode, hpush, ite_self, List.append_nil]
    split <;> simp
  · by_cases hik : i = k
    · subst hik
      simpa [RingMove.onNode, hpop, hpush] using queueFits_push hfit hroom
    · simpa [RingMove.onNode, hpop, hik] using hfit

/-- A ring step leads to a network that is yet to be settled. -/
theorem State.Inv.ringAbsorb {s v : State} {i : Nat} (h : s.Inv) (hr : s.netStatus = .running) (hi : i < s.nodes.length)
    (hv : Machine.stepCore (s.ringView i) = .next v) : (s.ringAbsorb i v).Unsettled := by
  obtain ⟨hcore, -, hrun⟩ := stepCore_core_inv (s := s.ringView i) h.params (h.net.cores _ (State.node_mem hi)) hv
  have hstepped : ∀ n ∈ (s.ringApply i (s.moveTo i v)).nodes, n.core = v.core ∨ ∃ m ∈ s.nodes, n.core = m.core := by
    intro n hn
    obtain ⟨k, hk, rfl⟩ := State.mem_ringApply hn
    by_cases hik : i = k
    · exact .inl (if_pos hik)
    · exact .inr ⟨_, State.node_mem hk, if_neg hik⟩
  rw [State.ringAbsorb_eq]
  refine ⟨(s.ringApply_length ..).trans h.net.count, fun n hn => ?_, State.ringApply_channels hv h.net.channels, h.net.failCore, hr,
    fun n hn => ?_⟩
  · rcases hstepped n hn with hc | ⟨m, hm, hc⟩
    · exact hc ▸ hcore
    · exact hc ▸ h.net.cores m hm
  · rcases hstepped n hn with hc | ⟨m, hm, hc⟩
    · rw [hc, hrun]
      exact (h.net.running hr _ (State.node_mem hi)).1
    · exact hc ▸ (h.net.running hr m hm).1

/-- The invariant of a state that differs in the ring only. -/
theorem State.Inv.of_net {s t : State} (h : s.Inv) (hp : t.params = s.params) (him : t.image = s.image)
    (hpc : t.startPc = s.startPc) (hc : t.core = s.core) (hi : t.inq = s.inq) (hq : t.outq = s.outq) (hn : t.NetInv) : t.Inv := by
  constructor
  · rw [hp]; exact h.params
  · rw [him, hp]; exact h.image
  · rw [hpc, hp]; exact h.startPc
  · rw [hc, hp]; exact h.core
  · rw [hi, hp]; exact h.inq
  · rw [hq, hp]; exact h.outq
  · exact hn

theorem State.Inv.ringStepAt {s t : State} {i : Nat} (h : s.Inv) (hs : ringStepAt i s = .next t) : t.Inv := by
  rcases ringStepAt_cases i s with ⟨⟨hr, hi, -⟩, v, hv, hstep⟩ | ⟨-, hstep⟩
  · cases hs.symm.trans hstep
    exact h.of_net (by simp) (by simp) (by simp) (by simp) (by simp) (by simp) (h.ringAbsorb hr hi hv).settle
  · cases hs.symm.trans hstep
    exact h

/-- Settles O44: a step is the standalone core's, or a ring step with the model's counter advanced. -/
theorem stepKeepsTheInvariant : Obligations.StepKeepsTheInvariant := by
  unfold Obligations.StepKeepsTheInvariant
  intro s t h hs
  by_cases hr : s.netStatus = .running
  · obtain ⟨i, u, hu, hstep⟩ := ringStep_cases s
    rw [step_of_running hr, hstep] at hs
    cases hs
    have hi := h.ringStepAt hu
    exact hi.of_net rfl rfl rfl rfl rfl rfl (hi.net.congr rfl rfl rfl rfl rfl)
  · rw [step_of_not_running hr] at hs
    exact h.stepCore hs

end Sys2Proof.Machine
end

section
/-! The host's operations (spec/60_exceptions.md R204, R207), what they leave of a core, and the events that keep the invariant. -/

namespace Sys2Proof.Machine

theorem CoreRegs.enabled_eq_false_iff (c : CoreRegs) : c.enabled = false ↔ c.run = false ∨ c.status ≠ .ready := by
  rw [← Bool.not_eq_true, c.enabled_iff, not_and_or, Bool.not_eq_true, or_comm]

theorem queueRoom_iff {p : Params} {n : Nat} : queueRoom p n = true ↔ ∀ d, p.queueDepth = some d → n < d := by
  unfold queueRoom
  cases p.queueDepth <;> simp

/-! What an accepted operation needs and does, one lemma for each operation with a precondition. -/

section Accepted

variable {s t : State} {r : HostReply}

theorem hostOp_load_eq_some {P : List Int} {k : Int} :
    hostOp (.load P k) s = some (t, r) ↔
      s.core.enabled = false ∧ loadable s.params P k = true ∧ t = s.load P k ∧ r = .ack := by
  simp [hostOp, and_assoc, eq_comm (a := t), eq_comm (a := r)]

theorem hostOp_start_eq_some :
    hostOp .start s = some (t, r) ↔
      s.core.status = .ready ∧ s.core.run = false ∧ t = { s with core := { s.core with run := true } } ∧ r = .ack := by
  simp [hostOp, and_assoc, eq_comm (a := t), eq_comm (a := r)]

theorem hostOp_pushIn_eq_some {v : Word} :
    hostOp (.pushIn v) s = some (t, r) ↔
      s.inEos = false ∧ queueRoom s.params s.inq.length = true ∧ t = { s with inq := s.inq ++ [.val v] } ∧ r = .ack := by
  simp [hostOp, push, and_assoc, eq_comm (a := t), eq_comm (a := r)]

theorem hostOp_pushMalformed_eq_some :
    hostOp .pushMalformed s = some (t, r) ↔
      s.inEos = false ∧ queueRoom s.params s.inq.length = true ∧ t = { s with inq := s.inq ++ [.malformed] } ∧ r = .ack := by
  simp [hostOp, push, and_assoc, eq_comm (a := t), eq_comm (a := r)]

theorem hostOp_popOut_eq_some :
    hostOp .popOut s = some (t, r) ↔ ∃ v rest, s.outq = v :: rest ∧ t = { s with outq := rest } ∧ r = .value v := by
  cases hq : s.outq <;> simp [hostOp, hq, eq_comm (a := t), eq_comm (a := r)]

theorem hostOp_dumpMem_eq_some :
    hostOp .dumpMem s = some (t, r) ↔ s.core.enabled = false ∧ t = s ∧ r = .memory s.core.image := by
  simp [hostOp, eq_comm (a := t), eq_comm (a := r)]

/-- An accepted operation leaves the registers and memory, unless it resets them or starts a core that is ready and stopped. -/
theorem hostOp_core {op : HostOp} (h : hostOp op s = some (t, r)) :
    t.core = s.core ∨ op = .reset ∨ (s.core.enabled = false ∧ ∃ P k, op = .load P k) ∨
      (op = .start ∧ s.core.status = .ready ∧ s.core.run = false) := by
  cases op with
  | load P k => exact .inr (.inr (.inl ⟨(hostOp_load_eq_some.mp h).1, P, k, rfl⟩))
  | start =>
    obtain ⟨hst, hrun, -⟩ := hostOp_start_eq_some.mp h
    exact .inr (.inr (.inr ⟨rfl, hst, hrun⟩))
  | pushIn v =>
    obtain ⟨-, -, rfl, -⟩ := hostOp_pushIn_eq_some.mp h
    exact .inl rfl
  | pushMalformed =>
    obtain ⟨-, -, rfl, -⟩ := hostOp_pushMalformed_eq_some.mp h
    exact .inl rfl
  | popOut =>
    obtain ⟨v, rest, -, rfl, -⟩ := hostOp_popOut_eq_some.mp h
    exact .inl rfl
  | dumpMem =>
    obtain ⟨-, rfl, -⟩ := hostOp_dumpMem_eq_some.mp h
    exact .inl rfl
  | closeIn | readStatus =>
    cases h
    exact .inl rfl
  | reset => exact .inr (.inl rfl)

end Accepted

/-- Settles O49: LOAD and START need a core that is not running. -/
theorem hostLeavesARunningCoreAlone : Obligations.HostLeavesARunningCoreAlone := by
  unfold Obligations.HostLeavesARunningCoreAlone
  intro s t op r hen hop h
  rcases hostOp_core h with hc | rfl | ⟨hoff, -⟩ | ⟨-, -, hrun⟩
  · exact hc
  · exact absurd rfl hop
  · simp [hen] at hoff
  · simp [CoreRegs.enabled, hrun] at hen

/-- The preconditions of R204, as the model tests them. -/
def State.accepts (s : State) (op : HostOp) : Prop :=
  match op with
  | .load P k => s.core.enabled = false ∧ loadable s.params P k = true
  | .start => s.core.status = .ready ∧ s.core.run = false
  | .pushIn _ => s.inEos = false ∧ queueRoom s.params s.inq.length = true
  | .pushMalformed => s.inEos = false ∧ queueRoom s.params s.inq.length = true
  | .popOut => 0 < s.outq.length
  | .dumpMem => s.core.enabled = false
  | .closeIn => True
  | .readStatus => True
  | .reset => True

theorem hostOp_isSome_iff (s : State) (op : HostOp) : (hostOp op s).isSome = true ↔ s.accepts op := by
  cases op with
  | popOut => cases hq : s.outq <;> simp [hostOp, State.accepts, hq]
  | load | start | pushIn | pushMalformed | closeIn | readStatus | dumpMem | reset => simp [hostOp, State.accepts]

/-- Settles O48: each clause is the operation's acceptance or its effect, by the lemmas above; the ring's read-out is by definition. -/
theorem hostOperationsAreAcceptedOnTheirPreconditions : Obligations.HostOperationsAreAcceptedOnTheirPreconditions := by
  unfold Obligations.HostOperationsAreAcceptedOnTheirPreconditions
  intro s
  refine ⟨fun P k => ?load, hostOp_isSome_iff s .start, fun v => ?push, ?pushMalformed, rfl, hostOp_isSome_iff s .popOut, rfl, ?dump,
    rfl, fun op h => by simp [State.after, h], fun op t r h => by simp [State.after, h], ?_⟩
  case load => rw [hostOp_isSome_iff, State.accepts, CoreRegs.enabled_eq_false_iff, loadable_iff]
  case push => rw [hostOp_isSome_iff, State.accepts, queueRoom_iff]
  case pushMalformed => rw [hostOp_isSome_iff, State.accepts, queueRoom_iff]
  case dump => rw [hostOp_isSome_iff, State.accepts, CoreRegs.enabled_eq_false_iff]
  refine ⟨fun t r h => ?_, fun v t r h => ?_, fun t r h => ?_, fun t r h => ?_, fun t r h => ?_, fun t r h => ?_, fun t r h => ?_,
    rfl, rfl, rfl, fun v => ?_, by simp [State.netReport], fun i hi => ?_⟩
  · exact (hostOp_start_eq_some.mp h).2.2.1
  · exact (hostOp_pushIn_eq_some.mp h).2.2.1
  · exact (hostOp_pushMalformed_eq_some.mp h).2.2.1
  · cases h
    rfl
  · obtain ⟨v, rest, hq, rfl, rfl⟩ := hostOp_popOut_eq_some.mp h
    exact ⟨v, rfl, hq, rfl⟩
  · cases h
    exact ⟨rfl, rfl⟩
  · obtain ⟨-, rfl, rfl⟩ := hostOp_dumpMem_eq_some.mp h
    exact ⟨rfl, _, rfl, by simp [CoreRegs.image], fun a ha => by simp [CoreRegs.image, ha]⟩
  · simp [State.netReport, eq_comm]
  · simp [State.netReport, State.nodes_getElem? hi]

/-! Terminal states. -/

/-- What an event is that leads to another state: a step, a ring step, an accepted operation, or an accepted boot. -/
theorem State.after_cases {s t : State} {e : Event} (h : s.after e = .next t) :
    t = s ∨ (e = .step ∧ step s = .next t) ∨ (∃ i, e = .ringCore i ∧ ringStepAt i s = .next t) ∨
      (∃ op r, e = .host op ∧ hostOp op s = some (t, r)) ∨
      (∃ P k phases, e = .boot P k phases ∧ bootRing P k phases s = some t) := by
  cases e with
  | step => exact .inr (.inl ⟨rfl, h⟩)
  | ringCore i => exact .inr (.inr (.inl ⟨i, rfl, h⟩))
  | host op =>
    cases hop : hostOp op s with
    | none => exact .inl (by simpa [State.after, hop, eq_comm] using h)
    | some x =>
      cases (by simpa [State.after, hop] using h : x.1 = t)
      exact .inr (.inr (.inr (.inl ⟨op, x.2, rfl, hop⟩)))
  | boot P k phases =>
    cases hb : bootRing P k phases s with
    | none => exact .inl (by simpa [State.after, hb, eq_comm] using h)
    | some u =>
      cases (by simpa [State.after, hb] using h : u = t)
      exact .inr (.inr (.inr (.inr ⟨P, k, phases, rfl, hb⟩)))

theorem ringStepAt_sameCore {s t : State} {i : Nat} (h : ringStepAt i s = .next t) : t.core = s.core := by
  rcases ringStepAt_cases i s with ⟨-, v, -, hstep⟩ | ⟨-, hstep⟩
  · cases hstep.symm.trans h
    simp
  · cases hstep.symm.trans h
    rfl

theorem step_of_disabled {s t : State} (hen : s.core.enabled = false) (h : step s = .next t) : t.core = s.core := by
  by_cases hr : s.netStatus = .running
  · obtain ⟨i, u, hu, hstep⟩ := ringStep_cases s
    rw [step_of_running hr, hstep] at h
    cases h
    exact ringStepAt_sameCore (t := u) hu
  · rw [step_of_not_running hr, stepCore_of_disabled hen] at h
    cases h
    rfl

theorem ringBoot_sameCore (s : State) (P : List Word) (start : Nat) (phases : List Word) :
    (s.ringBoot P start phases).core = s.core := by
  rw [State.ringBoot_eq, State.settle_core, State.ringSwitchedOn, State.ringPrepared_rest]

/-- Settles O14: by the kind of the event; a terminal core is not enabled, and START needs a ready one. -/
theorem onlyResetLeavesTerminalStates : Obligations.OnlyResetLeavesTerminalStates := by
  unfold Obligations.OnlyResetLeavesTerminalStates
  intro s t e hterm h hreset hload
  have hready : s.core.status ≠ .ready := by rcases hterm with hs | hs <;> simp [hs]
  rcases State.after_cases h with rfl | ⟨-, hs⟩ | ⟨i, -, hs⟩ | ⟨op, r, rfl, hop⟩ | ⟨P, k, phases, -, hb⟩
  · rfl
  · exact step_of_disabled (s.core.enabled_eq_false_iff.mpr (.inr hready)) hs
  · exact ringStepAt_sameCore hs
  · rcases hostOp_core hop with hc | rfl | ⟨-, P, k, rfl⟩ | ⟨-, hst, -⟩
    · exact hc
    · exact absurd rfl hreset
    · exact absurd rfl (hload P k)
    · exact absurd hst hready
  · obtain ⟨-, -, -, -, rfl⟩ := bootRing_eq_some hb
    exact ringBoot_sameCore ..

/-! The invariant. -/

theorem queueFits_zero (p : Params) : queueFits p 0 = true := by
  unfold queueFits
  cases p.queueDepth <;> simp

/-- A host operation keeps the invariant. -/
theorem State.Inv.hostOp {s t : State} {op : HostOp} {r : HostReply} (h : s.Inv) (hop : hostOp op s = some (t, r)) : t.Inv := by
  have hsame : sameOutside s s := ⟨rfl, rfl, rfl, rfl, rfl, rfl, rfl, rfl, rfl⟩
  cases op with
  | load P k =>
    obtain ⟨-, hload, rfl, -⟩ := hostOp_load_eq_some.mp hop
    obtain ⟨hk, hcap, hlen, -⟩ := loadable_iff.mp hload
    have hlen' : (P.map wrap64).length ≤ s.params.memCapacity := by simpa using hlen
    have hstart : k.toNat < s.params.memCapacity := by omega
    exact ⟨h.params, hlen', hstart, CoreRegs.Inv.resetWith h.params hlen' hstart, queueFits_zero _, queueFits_zero _,
      h.net.congr rfl rfl rfl rfl rfl⟩
  | start =>
    obtain ⟨-, -, rfl, -⟩ := hostOp_start_eq_some.mp hop
    exact h.of_sameOutside hsame (h.core.withRun true) h.inq h.outq
  | pushIn v =>
    obtain ⟨-, hroom, rfl, -⟩ := hostOp_pushIn_eq_some.mp hop
    exact h.of_sameOutside hsame h.core (by simpa using queueFits_of_room hroom) h.outq
  | pushMalformed =>
    obtain ⟨-, hroom, rfl, -⟩ := hostOp_pushMalformed_eq_some.mp hop
    exact h.of_sameOutside hsame h.core (by simpa using queueFits_of_room hroom) h.outq
  | closeIn =>
    cases hop
    exact h.of_sameOutside hsame h.core h.inq h.outq
  | popOut =>
    obtain ⟨v, rest, hq, rfl, -⟩ := hostOp_popOut_eq_some.mp hop
    exact h.of_sameOutside hsame h.core h.inq (queueFits_mono h.outq (by simp [hq]))
  | readStatus =>
    cases hop
    exact h
  | dumpMem =>
    obtain ⟨-, rfl, -⟩ := hostOp_dumpMem_eq_some.mp hop
    exact h
  | reset =>
    cases hop
    exact h.of_sameOutside hsame (CoreRegs.Inv.resetWith h.params h.image h.startPc) (queueFits_zero _) (queueFits_zero _)

/-- Every core of the ring is upstream of one. -/
theorem exists_upstream_eq {n j : Nat} (hj : j < n) : ∃ i < n, upstream n i = j := by
  by_cases hlast : j + 1 = n
  · exact ⟨0, by omega, by rw [upstream_eq (by omega)]; simp; omega⟩
  · exact ⟨j + 1, by omega, by rw [upstream_eq (by omega)]; simp⟩

/-- A prepared ring whose channels have room for core 0's two entries is, once its cores are started, yet to be settled. -/
theorem State.Inv.ringSwitchedOn {s : State} {P : List Word} {start : Nat} {phases : List Word} (h : s.Inv)
    (hN : 1 ≤ s.params.ampCount) (hl : phases.length = s.params.ampCount) (hroom : queueRoom s.params 1 = true)
    (hP : P.length ≤ s.params.memCapacity) (hk : start < s.params.memCapacity) :
    (s.ringPrepared P start phases).ringSwitchedOn.Unsettled := by
  have hparams : (s.ringPrepared P start phases).ringSwitchedOn.params = s.params := by
    rw [State.ringSwitchedOn, State.ringPrepared_rest]
  have hfail : (s.ringPrepared P start phases).ringSwitchedOn.netFailCore = 0 := by
    rw [State.ringSwitchedOn, State.ringPrepared_rest]
  constructor
  · rw [hparams, State.ringSwitchedOn_length, State.ringPrepared_length]
  · intro n hn
    rw [hparams, State.ringSwitchedOn_prepared_core hn]
    exact (CoreRegs.Inv.resetWith h.params hP hk).withRun true
  · intro n hn
    obtain ⟨j, hj⟩ := List.mem_iff_getElem?.mp hn
    have hlt := (List.getElem?_eq_some_iff.mp hj).1
    simp only [State.ringSwitchedOn_length, State.ringPrepared_length] at hlt
    obtain ⟨i, hi, rfl⟩ := exists_upstream_eq hlt
    rw [State.nodes_getElem? (by simpa using hlt), State.ringSwitchedOn_node (by simpa using hlt)] at hj
    rw [← Option.some.inj hj, hparams, State.ringPrepared_chan s P start hl (List.getElem?_eq_getElem (hl ▸ hi))]
    refine queueFits_mono (queueFits_of_room hroom) ?_
    split <;> simp
  · rw [hparams, hfail]
    omega
  · rfl
  · intro n hn
    rw [State.ringSwitchedOn_prepared_core hn]

theorem State.Inv.ringBoot {s : State} {P : List Word} {start : Nat} {phases : List Word} (h : s.Inv)
    (hN : 1 ≤ s.params.ampCount) (hl : phases.length = s.params.ampCount) (hroom : queueRoom s.params 1 = true)
    (hP : P.length ≤ s.params.memCapacity) (hk : start < s.params.memCapacity) : (s.ringBoot P start phases).Inv := by
  have hnet := (h.ringSwitchedOn hN hl hroom hP hk).settle
  rw [State.ringBoot_eq]
  refine h.of_net ?_ ?_ ?_ ?_ ?_ ?_ hnet
  all_goals
    simp only [State.settle_params, State.settle_image, State.settle_startPc, State.settle_core, State.settle_inq, State.settle_outq]
    rw [State.ringSwitchedOn, State.ringPrepared_rest]

/-- Settles O45: by the kind of the event; a boot's channels have room for core 0's phase and driving value. -/
theorem eventsKeepTheInvariant : Obligations.EventsKeepTheInvariant := by
  unfold Obligations.EventsKeepTheInvariant
  intro s t e he h hs
  rcases State.after_cases hs with rfl | ⟨rfl, -⟩ | ⟨i, -, hstep⟩ | ⟨op, r, -, hop⟩ | ⟨P, k, phases, -, hb⟩
  · exact h
  · exact absurd rfl he
  · exact h.ringStepAt hstep
  · exact h.hostOp hop
  · obtain ⟨hN, hl, hroom, hload, rfl⟩ := bootRing_eq_some hb
    obtain ⟨hk, hcap, hlen, -⟩ := loadable_iff.mp hload
    exact h.ringBoot hN hl hroom (by simpa using hlen) (by omega)

/-- Settles O43: the reset cores are the reset of an empty image at 0, and the network is idle. -/
theorem resetMeetsTheInvariant : Obligations.ResetMeetsTheInvariant := by
  have hcore : CoreRegs.Inv State.reset.params CoreRegs.blank :=
    CoreRegs.Inv.resetWith (P := []) (k := 0) (by decide) (by decide) (by decide)
  have hnode : ∀ n ∈ State.reset.nodes, n = ⟨CoreRegs.blank, []⟩ := fun n hn => List.eq_of_mem_replicate hn
  refine ⟨by decide, by decide, by decide, hcore, by decide, by decide, by decide, fun n hn => ?_, fun n hn => ?_, by decide,
    by decide, by decide⟩
  · rw [hnode n hn]
    exact hcore
  · rw [hnode n hn]
    rfl

end Sys2Proof.Machine
end

section
/-! The step of a core: what it runs, when it keeps its state, and what no instruction can change (spec/40_cycle.md R100-R110). -/

namespace Sys2Proof

/-- Settles O1: six decodings of concrete words. -/
theorem writtenWordsDecode : Obligations.WrittenWordsDecode := by
  unfold Obligations.WrittenWordsDecode
  decide

end Sys2Proof

namespace Sys2Proof.Machine

/-! Which instruction runs. -/

/-- Settles O10: the fetch succeeds exactly on such cells (`fetch_ok_iff`). -/
theorem stepRunsTheDecodedInstruction : Obligations.StepRunsTheDecodedInstruction := by
  unfold Obligations.StepRunsTheDecodedInstruction
  refine ⟨fun s h => step_of_not_running h, fun s i h hf hd hcells => ?_⟩
  rw [step_of_not_running h, stepCore_of_fetch hf.1 ((fetch_ok_iff s i).mpr ⟨hd, hcells⟩)]

/-- The placed cells are read at `PC` and behind it. -/
theorem read_withFetchWord (s : State) (nbits w : Nat) {k : Nat} (hk : k < 4) :
    Memory.read (s.withFetchWord nbits w).core.mem (s.core.pc + k) = tableCell nbits w k := by
  simp only [State.withFetchWord, Memory.read_write]
  interval_cases k <;> simp

/-- Settles O12: the decoder reads no cell beyond the four that are placed. -/
theorem placedWordRunsFirst : Obligations.PlacedWordRunsFirst := by
  unfold Obligations.PlacedWordRunsFirst
  intro nbits w i h
  have hdec : decode (tableCell nbits w 0) (tableCell nbits w) = .ok i := by
    unfold decodeTableWord at h
    split at h
    · cases h
    · next hd => exact hd.trans (congrArg _ (Option.some.inj h))
  obtain ⟨s, hs⟩ : ∃ s, s = State.reset.withFetchWord nbits w := ⟨_, rfl⟩
  have hcell : ∀ k, k < 4 → s.fetchedRaw k = tableCell nbits w k := fun k hk => by
    rw [hs]
    exact read_withFetchWord _ _ _ hk
  have hfetch : fetch s = .ok i := by
    refine (fetch_ok_iff s i).mpr ⟨?_, ?_⟩
    · rw [show s.fetchedWord = tableCell nbits w 0 from hcell 0 (by omega), ← hdec]
      exact decode_congr fun k _ hk => hcell k (by omega)
    · have hlen := paramCount_le (paramCount_opcode i)
      rw [hs]
      show 0 + i.params.length < 2 ^ 63
      omega
  rw [← hs, step_of_not_running (by rw [hs]; simp [State.withFetchWord, State.reset]),
    stepCore_of_fetch (by rw [hs]; rfl) hfetch]

/-- Settles O13: a step is a ring step or a core's step, and each answers a state. -/
theorem everyStepAnswersANextState : Obligations.EveryStepAnswersANextState := by
  unfold Obligations.EveryStepAnswersANextState
  intro s
  by_cases hr : s.netStatus = .running
  · obtain ⟨i, t, -, hstep⟩ := ringStep_cases s
    exact ⟨_, (step_of_running hr).trans hstep⟩
  · obtain ⟨t, ht⟩ := stepCore_next s
    exact ⟨t, (step_of_not_running hr).trans ht⟩

/-! A core that takes no step. -/

/-- An IN with a good target on an empty queue whose stream has not ended stalls (R130). -/
theorem exec_inp_of_open {s : State} {p : Param} (hp : s.targetable p) (hq : s.inq = []) (he : s.inEos = false) :
    exec (.inp p) s = .next s := by
  simp [exec, execIn, writeTarget_of_targetable hp, hq, he, finish_ok]

/-- An OUT with a readable operand on a full queue stalls (R131). -/
theorem exec_out_of_full {s : State} {a : Param} (ha : s.readable a) (hq : queueFull s.params s.outq.length = true) :
    exec (.out a) s = .next s := by
  simp [exec, execOut, readOperand_of_readable ha, hq, finish_ok]

theorem canStep_eq_false_iff (s : State) :
    s.canStep = false ↔ s.core.enabled = false ∨ s.waitIn = true ∨ s.waitOut = true := by
  simp only [State.canStep, Bool.and_eq_false_iff, Bool.not_eq_false', or_assoc]

/-- A core that may not step, or waits, keeps its state (R107, R112). -/
theorem stepCore_of_not_canStep {s : State} (h : s.canStep = false) : stepCore s = .next s := by
  rcases (canStep_eq_false_iff s).mp h with hoff | hin | hout
  · exact stepCore_of_disabled hoff
  · obtain ⟨hen, t, hf, ht, hq, he⟩ := inWait_of_waitIn hin
    rw [stepCore_of_fetch hen hf, exec_inp_of_open ht hq he]
  · obtain ⟨hen, a, hf, ha, hq⟩ := outWait_of_waitOut hout
    rw [stepCore_of_fetch hen hf, exec_out_of_full ha hq]

theorem ringStepAt_of_not_canStep {s : State} {i : Nat} (h : s.ringCanStep i = false) : ringStepAt i s = .next s := by
  rcases ringStepAt_cases i s with ⟨⟨-, -, hcan⟩, -⟩ | ⟨-, hstep⟩
  · simp [h] at hcan
  · exact hstep

/-- Settles O15: the four reasons are those of `State.canStep`. -/
theorem stalledStepsChangeNothing : Obligations.StalledStepsChangeNothing := by
  unfold Obligations.StalledStepsChangeNothing
  have hcannot : ∀ s : State, s.core.run = false ∨ s.core.status ≠ .ready ∨ s.waitIn = true ∨ s.waitOut = true →
      s.canStep = false := fun s h =>
    (canStep_eq_false_iff s).mpr (by rwa [s.core.enabled_eq_false_iff, or_assoc])
  refine ⟨fun s h => stepCore_of_not_canStep (hcannot s h), fun s i h => ?_⟩
  have hcan : s.ringCanStep i = false := hcannot _ h
  exact ⟨hcan, ringStepAt_of_not_canStep hcan⟩

/-! What an execution changes, and what each of the states it can leave has kept. -/

theorem sameQueues_afterBinary (s : State) (a b t : Param) (v : Word) : sameQueues s (afterBinary s a b t v) := by
  simp [sameQueues, afterBinary]
theorem sameQueues_afterJump (s : State) (a b : Param) (next : Nat) : sameQueues s (afterJump s a b next) := by
  simp [sameQueues, afterJump]
theorem sameQueues_afterArb (s : State) (a : Param) (r : Word) : sameQueues s (afterArb s a r) := by
  simp [sameQueues, afterArb]
theorem sameQueues_afterHalt (s : State) : sameQueues s (afterHalt s) := by
  simp [sameQueues, afterHalt]

@[simp] theorem afterBinary_core_rb (s : State) (a b t : Param) (v : Word) : (afterBinary s a b t v).core.rb = s.core.rb := by
  simp [afterBinary]
@[simp] theorem afterBinary_core_status (s : State) (a b t : Param) (v : Word) :
    (afterBinary s a b t v).core.status = s.core.status := by
  simp [afterBinary]
@[simp] theorem afterIn_core_rb (s : State) (t : Param) (v : Word) (rest : List Token) :
    (afterIn s t v rest).core.rb = s.core.rb := by
  simp [afterIn]
@[simp] theorem afterIn_core_status (s : State) (t : Param) (v : Word) (rest : List Token) :
    (afterIn s t v rest).core.status = s.core.status := by
  simp [afterIn]
@[simp] theorem afterOut_core_rb (s : State) (a : Param) : (afterOut s a).core.rb = s.core.rb := rfl
@[simp] theorem afterOut_core_status (s : State) (a : Param) : (afterOut s a).core.status = s.core.status := rfl
@[simp] theorem afterJump_core_rb (s : State) (a b : Param) (next : Nat) : (afterJump s a b next).core.rb = s.core.rb := rfl
@[simp] theorem afterJump_core_status (s : State) (a b : Param) (next : Nat) :
    (afterJump s a b next).core.status = s.core.status := rfl
@[simp] theorem afterArb_core_rb (s : State) (a : Param) (r : Word) : (afterArb s a r).core.rb = r := rfl
@[simp] theorem afterArb_core_status (s : State) (a : Param) (r : Word) : (afterArb s a r).core.status = s.core.status := rfl
@[simp] theorem afterHalt_core_rb (s : State) : (afterHalt s).core.rb = s.core.rb := rfl
@[simp] theorem afterHalt_core_status (s : State) : (afterHalt s).core.status = .halted := rfl

/-- An execution that neither waits nor faults extends `MLEN` over what the instruction touches (R53). -/
theorem Ends.grown {s t : State} {i : Instr} (he : Ends s i t) (hen : s.core.enabled = true) (hf : fetch s = .ok i)
    (hin : s.waitIn = false) (hout : s.waitOut = false) (hst : t.core.status ≠ .faulted) :
    grownOver s.core.mlen t.core.mlen (s.touchedBy i) := by
  have hgrown : ∀ {u len touched next}, commits s u len touched next → 1 + i.params.length = len →
      i.readSlots.flatMap s.slotTouched ++ (i.writeSlot.map s.slotAddr).toList = touched →
      grownOver s.core.mlen u.core.mlen (s.touchedBy i) := by
    rintro u _ _ _ ⟨-, hg, -⟩ rfl rfl
    rwa [State.touchedBy, List.append_assoc]
  cases he with
  | add | mul | lt | eq => exact hgrown (commits_afterBinary ..) rfl (by simp [Instr.readSlots, Instr.writeSlot])
  | inp => exact hgrown (commits_afterIn ..) rfl rfl
  | out => exact hgrown (commits_afterOut ..) rfl (by simp [Instr.readSlots, Instr.writeSlot])
  | jtTaken | jtUntaken | jfTaken | jfUntaken =>
    exact hgrown (commits_afterJump ..) rfl (by simp [Instr.readSlots, Instr.writeSlot])
  | arb => exact hgrown (commits_afterArb ..) rfl (by simp [Instr.readSlots, Instr.writeSlot])
  | halt => exact hgrown (commits_afterHalt s) rfl rfl
  | inWait ht hq ho => simp [waitIn_of_inWait hen hf ht hq ho] at hin
  | outWait ha hq => simp [waitOut_of_outWait hen hf ha hq] at hout
  | fault => exact absurd rfl hst

/-- Settles O19: a fault writes its record alone, a wait keeps the state, and any other end commits (`Ends.grown`). -/
theorem touchedAddressesExtendTheMemory : Obligations.TouchedAddressesExtendTheMemory := by
  unfold Obligations.TouchedAddressesExtendTheMemory
  intro s t i hen hf hs
  have hready := (s.core.enabled_iff.mp hen).1
  have hends : Ends s i t := exec_cases (stepCore_of_fetch hen hf ▸ hs)
  have hwait : s.waitIn = true ∨ s.waitOut = true → t.core.mlen = s.core.mlen := fun hw => by
    cases hs.symm.trans (stepCore_of_not_canStep ((canStep_eq_false_iff s).mpr (.inr hw)))
    rfl
  refine ⟨?_, fun hst hin hout => hends.grown hen hf hin hout hst, fun a ha hne => ?_⟩
  · rintro (hst | hw)
    · obtain ⟨e, rfl, -⟩ := stepCore_faulted (by simp [hready]) hs hst
      rfl
    · exact hwait hw
  · rcases hends.mem_cases with hm | ⟨p, v, hp, -, hm⟩
    · rw [hm]
    · rw [hm, Memory.read_write_ne _ fun h => hne (by rw [hp, h]; rfl)]

/-- Settles O21: by the ways an execution can end (`Ends`). -/
theorem onlyArbWritesTheRelativeBase : Obligations.OnlyArbWritesTheRelativeBase := by
  unfold Obligations.OnlyArbWritesTheRelativeBase
  intro s t i h hne
  cases exec_cases h with
  | arb => exact absurd rfl (hne _)
  | add | mul | lt | eq => exact afterBinary_core_rb ..
  | inp => exact afterIn_core_rb ..
  | inWait | out | outWait | jtTaken | jtUntaken | jfTaken | jfUntaken | halt | fault => rfl

/-- Settles O22: of the ways an execution can end, one pops and one pushes. -/
theorem onlyInAndOutMoveTheQueues : Obligations.OnlyInAndOutMoveTheQueues := by
  unfold Obligations.OnlyInAndOutMoveTheQueues
  intro s t i h
  cases exec_cases h with
  | inp ht hq => exact ⟨rfl, .inr ⟨⟨_, rfl⟩, _, hq⟩, .inl rfl⟩
  | out => exact ⟨rfl, .inl rfl, .inr ⟨_, rfl, rfl⟩⟩
  | add | mul | lt | eq =>
    obtain ⟨hin, heos, hout⟩ := sameQueues_afterBinary ..
    exact ⟨heos, .inl hin, .inl hout⟩
  | jtTaken | jtUntaken | jfTaken | jfUntaken | inWait | outWait | arb | halt | fault => exact ⟨rfl, .inl rfl, .inl rfl⟩

/-- Settles O23: every way an execution can end leaves what is outside the core (`Ends.outside`). -/
theorem noInstructionLeavesItsCore : Obligations.NoInstructionLeavesItsCore := by
  unfold Obligations.NoInstructionLeavesItsCore
  intro s t i h
  exact (exec_cases h).outside.symm

/-! The checks of addresses. -/

/-- Settles O24: the three clauses are the cases of `validAddr`. -/
theorem addressCheck : Obligations.AddressCheck := by
  unfold Obligations.AddressCheck
  refine ⟨fun p a h => ?_, fun p a h hcap => ?_, fun p k hk => checkAddr_nat hk⟩
  · rw [checkAddr_of_invalid fun hv => absurd hv.1 (not_le.mpr h), addrTrap, if_pos h]
  · rw [checkAddr_of_invalid fun hv => absurd hv.2 (not_lt.mpr hcap), addrTrap, if_neg (not_lt.mpr h)]

/-- Settles O26: both modes check the address `effAddr` gives them. -/
theorem writeTargetsResolve : Obligations.WriteTargetsResolve := by
  unfold Obligations.WriteTargetsResolve
  exact fun s r => ⟨rfl, rfl⟩

/-- The fault of an address that does not exist names it. -/
theorem faultsWith_addrTrap (s : State) (a : Int) :
    faultsWith s (if a < 0 then .negativeAddress else .capacity) a (.next (s.recordFault (addrTrap a))) := by
  have h := faultsWith_recordFault s (addrTrap a)
  rwa [addrTrap_recordsAddr, if_pos rfl] at h

theorem stepCore_of_fetch_error {s : State} {e : Trap} (hen : s.core.enabled = true) (hf : fetch s = .error e) :
    stepCore s = .next (s.recordFault e) := by
  simp [stepCore, hen, hf]

theorem fetch_of_pc_beyond {s : State} (h : s.params.memCapacity ≤ s.core.pc) :
    fetch s = .error ⟨.capacity, (s.core.pc : Int)⟩ := by
  rw [fetch, addressCheck.2.1 _ _ (Int.natCast_nonneg _) (Int.ofNat_le.mpr h)]

/-- A parameter cell at the first address that does not exist is the one the fetch names (R103). -/
theorem fetch_of_cell_beyond {s : State} {i : Instr} {k : Nat} (hpc : s.core.pc < s.params.memCapacity)
    (hd : decode s.fetchedWord s.fetchedRaw = .ok i) (hk : k ≤ i.params.length)
    (hcap : s.core.pc + k = s.params.memCapacity) : fetch s = .error ⟨.capacity, ((s.core.pc + k : Nat) : Int)⟩ := by
  cases hc : checkCells s.params s.core.pc 1 i.params.length with
  | ok =>
    have := checkCells_inv hc (k - 1) (by omega)
    omega
  | error e =>
    obtain ⟨j, hj, hbeyond, hfirst, rfl⟩ := checkCells_error hc
    have hjk : s.core.pc + 1 + j = s.core.pc + k := by
      rcases Nat.eq_zero_or_pos j with h0 | h0
      · omega
      · have := hfirst (j - 1) (by omega)
        omega
    rw [fetch, checkAddr_nat hpc]
    simp only [hd, hc, hjk]

/-- Settles O28: both are faults of the fetch. -/
theorem fetchBeyondTheCapacityFaults : Obligations.FetchBeyondTheCapacityFaults := by
  unfold Obligations.FetchBeyondTheCapacityFaults
  refine ⟨fun s hen h => ?_, fun s i k hf hd _ hk hcap => ?_⟩
  · rw [stepCore_of_fetch_error hen (fetch_of_pc_beyond h)]
    exact faultsWith_recordFault s ⟨.capacity, _⟩
  · rw [stepCore_of_fetch_error hf.1 (fetch_of_cell_beyond hf.2 hd hk hcap)]
    exact faultsWith_recordFault s ⟨.capacity, _⟩

/-- Slot `k` of `slots` is `p`, its address does not exist, and every earlier slot can be read (R106 item 7). -/
def State.firstBad (s : State) (slots : List Param) (k : Nat) (p : Param) : Prop :=
  slots[k]? = some p ∧ ¬ s.readable p ∧ ∀ j q, j < k → slots[j]? = some q → s.readable q

section FirstBad

variable {s : State} {k : Nat} {a b t p : Param}

theorem not_targetable_of_not_readable (h : ¬ s.readable t) : ¬ s.targetable t := fun ht => h (.inr ht.2)

theorem mode_ne_immediate_of_not_readable (h : ¬ s.readable t) : t.mode ≠ .immediate := fun hm => h (.inl hm)

theorem binaryToTarget_of_firstBad {f : Word → Word → Except Trap Word} (h : s.firstBad [a, b, t] k p) :
    binaryToTarget f a b t s = .next (s.recordFault (addrTrap (effAddr s.core p))) := by
  obtain ⟨hp, hbad, hearlier⟩ := h
  match k with
  | 0 =>
    cases hp
    rw [binaryToTarget_bad_read fun h => hbad h.1, if_neg hbad]
  | 1 =>
    cases hp
    rw [binaryToTarget_bad_read fun h => hbad h.2, if_pos (hearlier 0 a (by omega) rfl)]
  | 2 =>
    cases hp
    rw [binaryToTarget_bad_target (hearlier 0 a (by omega) rfl) (hearlier 1 b (by omega) rfl) (not_targetable_of_not_readable hbad),
      if_neg (mode_ne_immediate_of_not_readable hbad)]

theorem jumpIf_of_firstBad {taken : Word → Bool} (h : s.firstBad [a, b] k p) :
    jumpIf taken a b s = .next (s.recordFault (addrTrap (effAddr s.core p))) := by
  obtain ⟨hp, hbad, hearlier⟩ := h
  match k with
  | 0 =>
    cases hp
    rw [jumpIf_bad_read fun h => hbad h.1, if_neg hbad]
  | 1 =>
    cases hp
    rw [jumpIf_bad_read fun h => hbad h.2, if_pos (hearlier 0 a (by omega) rfl)]

theorem firstBad_singleton (h : s.firstBad [a] k p) : p = a ∧ ¬ s.readable a := by
  obtain ⟨hp, hbad, -⟩ := h
  match k with
  | 0 =>
    cases hp
    exact ⟨rfl, hbad⟩

/-- The first slot whose address does not exist gives the fault of every instruction. -/
theorem exec_of_firstBad {i : Instr} (h : s.firstBad i.params k p) :
    exec i s = .next (s.recordFault (addrTrap (effAddr s.core p))) := by
  cases i with
  | add a b t => exact (exec_add a b t s).trans (binaryToTarget_of_firstBad h)
  | mul a b t => exact (exec_mul a b t s).trans (binaryToTarget_of_firstBad h)
  | lt a b t => exact (exec_lt a b t s).trans (binaryToTarget_of_firstBad h)
  | eq a b t => exact (exec_eq a b t s).trans (binaryToTarget_of_firstBad h)
  | jt a b => exact (exec_jt a b s).trans (jumpIf_of_firstBad h)
  | jf a b => exact (exec_jf a b s).trans (jumpIf_of_firstBad h)
  | inp t =>
    obtain ⟨rfl, hbad⟩ := firstBad_singleton h
    simp only [exec, execIn, writeTarget_of_not_targetable (not_targetable_of_not_readable hbad),
      if_neg (mode_ne_immediate_of_not_readable hbad), finish_error]
  | out a =>
    obtain ⟨rfl, hbad⟩ := firstBad_singleton h
    simp only [exec, execOut, readOperand_of_not_readable hbad, finish_error]
  | arb a =>
    obtain ⟨rfl, hbad⟩ := firstBad_singleton h
    simp only [exec, execArb, readOperand_of_not_readable hbad, finish_error]
  | halt => simp [State.firstBad, Instr.params] at h

end FirstBad

/-- Settles O27: each instruction's shape resolves its slots in order (`exec_of_firstBad`). -/
theorem operandFaultsInSlotOrder : Obligations.OperandFaultsInSlotOrder := by
  unfold Obligations.OperandFaultsInSlotOrder
  intro s i k p _ hp hm hv hearlier
  have hbad : ¬ s.readable p := not_or.mpr ⟨hm, hv⟩
  rw [exec_of_firstBad ⟨hp, hbad, hearlier⟩]
  exact faultsWith_addrTrap s _

end Sys2Proof.Machine
end

section
/-! What each instruction does: its result, its frame, its faults (spec/41_arithmetic.md to spec/45_base_halt.md). -/

namespace Sys2Proof.Machine

/-! ADD, MUL, LT, EQ. -/

@[simp] theorem read_afterBinary_target (s : State) (a b t : Param) (v : Word) :
    Memory.read (afterBinary s a b t v).core.mem (s.slotAddr t) = v := by
  rw [read_afterBinary, if_pos rfl]

/-- What storing a result leaves as it was, but for the target, `PC` and `MLEN`. -/
theorem frame_afterBinary (s : State) (a b t : Param) (v : Word) :
    sameCellsBut s (afterBinary s a b t v) (s.slotAddr t) ∧
      commits s (afterBinary s a b t v) 4 (s.slotTouched a ++ s.slotTouched b ++ [s.slotAddr t]) (s.core.pc + 4) ∧
      (afterBinary s a b t v).core.rb = s.core.rb ∧ (afterBinary s a b t v).core.status = s.core.status ∧
      sameQueues s (afterBinary s a b t v) :=
  ⟨fun k hk => by rw [read_afterBinary, if_neg hk], commits_afterBinary .., afterBinary_core_rb .., afterBinary_core_status ..,
    sameQueues_afterBinary ..⟩

/-- Settles O29: a narrowed sum is congruent to it. -/
theorem addStoresTheSum : Obligations.AddStoresTheSum := by
  unfold Obligations.AddStoresTheSum
  intro s a b t ha hb ht hno
  refine ⟨_, (exec_add a b t s).trans (binaryToTarget_ok ha hb ht (narrow_of_noOverflow hno)), ?_, frame_afterBinary ..⟩
  rw [read_afterBinary_target]
  exact wrap64_congruent _

/-- Settles O30: a narrowed product is congruent to it. -/
theorem mulStoresTheProduct : Obligations.MulStoresTheProduct := by
  unfold Obligations.MulStoresTheProduct
  intro s a b t ha hb ht hno
  refine ⟨_, (exec_mul a b t s).trans (binaryToTarget_ok ha hb ht (narrow_of_noOverflow hno)), ?_, frame_afterBinary ..⟩
  rw [read_afterBinary_target]
  exact wrap64_congruent _

/-- Settles O31: the comparison is one of integers. -/
theorem ltStoresTheComparison : Obligations.LtStoresTheComparison := by
  unfold Obligations.LtStoresTheComparison
  intro s a b t ha hb ht
  refine ⟨_, (exec_lt a b t s).trans (binaryToTarget_ok ha hb ht rfl), fun h => ?_, fun h => ?_, frame_afterBinary ..⟩
  · simp [boolWord, h]
  · simp [boolWord, not_lt.mpr h]

/-- Settles O32: words are equal exactly where their integers are. -/
theorem eqStoresTheComparison : Obligations.EqStoresTheComparison := by
  unfold Obligations.EqStoresTheComparison
  intro s a b t ha hb ht
  refine ⟨_, (exec_eq a b t s).trans (binaryToTarget_ok ha hb ht rfl), fun h => ?_, fun h => ?_, frame_afterBinary ..⟩
  · simp [boolWord, h]
  · simp [boolWord, BitVec.toInt_inj, h]

/-! IN and OUT. -/

/-- Settles O33. -/
theorem inStoresTheOldestToken : Obligations.InStoresTheOldestToken := by
  unfold Obligations.InStoresTheOldestToken
  intro s t v rest ht hq
  have hexec : exec (.inp t) s = .next (afterIn s t v rest) := by
    simp [exec, execIn, writeTarget_of_targetable ht, hq, finish_ok, afterIn]
  exact ⟨_, hexec, by rw [read_afterIn, if_pos rfl], fun k hk => by rw [read_afterIn, if_neg hk], rfl, by simp [afterIn],
    by simp [afterIn], commits_afterIn .., afterIn_core_rb .., afterIn_core_status ..⟩

/-- Settles O34. -/
theorem inWaitsOrFaultsWithoutAValue : Obligations.InWaitsOrFaultsWithoutAValue := by
  unfold Obligations.InWaitsOrFaultsWithoutAValue
  intro s t ht
  refine ⟨fun hq he => exec_inp_of_open ht hq he, fun hq he => ?_, fun rest hq => ?_⟩
  · rw [exec_inp_of_ended ht hq he]
    exact faultsWith_recordFault s ⟨.inputEnd, 0⟩
  · have hexec : exec (.inp t) s = .next (s.recordFault ⟨.inputFormat, 0⟩) := by
      simp [exec, execIn, writeTarget_of_targetable ht, hq, finish_error]
    rw [hexec]
    exact faultsWith_recordFault s ⟨.inputFormat, 0⟩

/-- An OUT with a readable operand pushes its value where the queue has room (R131). -/
theorem exec_out_of_room {s : State} {a : Param} (ha : s.readable a) (hq : s.params.queueDepth ≠ some s.outq.length) :
    exec (.out a) s = .next (afterOut s a) := by
  have hroom : queueFull s.params s.outq.length = false := by
    rw [← Bool.not_eq_true, queueFull_iff]
    exact hq
  simp [exec, execOut, readOperand_of_readable ha, hroom, finish_ok, afterOut, push]

/-- Settles O35. -/
theorem outPushesItsValue : Obligations.OutPushesItsValue := by
  unfold Obligations.OutPushesItsValue
  intro s a ha hq
  exact ⟨_, exec_out_of_room ha hq, rfl, rfl, rfl, fun _ => rfl, commits_afterOut .., rfl, rfl⟩

/-- Settles O36. -/
theorem outWaitsForRoom : Obligations.OutWaitsForRoom := by
  unfold Obligations.OutWaitsForRoom
  intro s a ha hq
  exact exec_out_of_full ha ((queueFull_iff _ _).mpr hq)

/-! JT and JF. -/

/-- What a jump leaves as it was, but for `PC` and `MLEN`. -/
theorem frame_afterJump (s : State) (a b : Param) (next : Nat) :
    sameCells s (afterJump s a b next) ∧ (afterJump s a b next).core.rb = s.core.rb ∧
      (afterJump s a b next).core.status = s.core.status ∧ sameQueues s (afterJump s a b next) :=
  ⟨fun _ => rfl, rfl, rfl, sameQueues_afterJump ..⟩

section Jumps

variable {s : State} {a b : Param} {taken : Word → Bool} (ha : s.readable a) (hb : s.readable b)

include ha hb

/-- A taken jump to an address goes there (R140, R141). -/
theorem jumpIf_completes_taken (ht : taken (s.operandValue a) = true) (hn : 0 ≤ (s.operandValue b).toInt) :
    ∃ u, jumpIf taken a b s = .next u ∧ (u.core.pc : Int) = (s.operandValue b).toInt ∧
      commits s u 3 (s.slotTouched a ++ s.slotTouched b) u.core.pc ∧
      sameCells s u ∧ u.core.rb = s.core.rb ∧ u.core.status = s.core.status ∧ sameQueues s u :=
  ⟨_, jumpIf_taken ha hb ht hn, toNat_of_nonneg hn, commits_afterJump .., frame_afterJump ..⟩

/-- An untaken jump goes on behind its cells. -/
theorem jumpIf_completes_untaken (ht : taken (s.operandValue a) = false) :
    ∃ u, jumpIf taken a b s = .next u ∧ commits s u 3 (s.slotTouched a ++ s.slotTouched b) (s.core.pc + 3) ∧
      sameCells s u ∧ u.core.rb = s.core.rb ∧ u.core.status = s.core.status ∧ sameQueues s u :=
  ⟨_, jumpIf_untaken ha hb ht, commits_afterJump .., frame_afterJump ..⟩

/-- A taken jump to a negative target faults. -/
theorem jumpIf_faults_negative (ht : taken (s.operandValue a) = true) (hn : (s.operandValue b).toInt < 0) :
    faultsWith s .jumpTargetNegative (s.operandValue b).toInt (jumpIf taken a b s) := by
  rw [jumpIf_negative ha hb ht hn]
  exact faultsWith_recordFault s ⟨.jumpTargetNegative, _⟩

end Jumps

/-- Settles O37: JT is the jump taken on a nonzero first operand. -/
theorem jtJumpsOnNonzero : Obligations.JtJumpsOnNonzero := by
  unfold Obligations.JtJumpsOnNonzero
  intro s a b ha hb
  rw [exec_jt]
  exact ⟨fun hx hn => jumpIf_completes_taken ha hb (by simpa using hx) hn,
    fun hx => jumpIf_completes_untaken ha hb (by simpa using hx)⟩

/-- Settles O38: JF is the jump taken on a zero first operand. -/
theorem jfJumpsOnZero : Obligations.JfJumpsOnZero := by
  unfold Obligations.JfJumpsOnZero
  intro s a b ha hb
  rw [exec_jf]
  exact ⟨fun hx hn => jumpIf_completes_taken ha hb (by simpa using hx) hn,
    fun hx => jumpIf_completes_untaken ha hb (by simpa using hx)⟩

/-- Settles O39. -/
theorem negativeJumpTargetsFault : Obligations.NegativeJumpTargetsFault := by
  unfold Obligations.NegativeJumpTargetsFault
  intro s a b ha hb hn
  rw [exec_jt, exec_jf]
  exact ⟨fun hx => jumpIf_faults_negative ha hb (by simpa using hx) hn,
    fun hx => jumpIf_faults_negative ha hb (by simpa using hx) hn⟩

/-! ARB, HALT and overflow. -/

/-- Settles O40. -/
theorem arbAddsToTheRelativeBase : Obligations.ArbAddsToTheRelativeBase := by
  unfold Obligations.ArbAddsToTheRelativeBase
  intro s a ha hno
  have hexec : exec (.arb a) s = .next (afterArb s a (wrap64 (s.core.rb.toInt + (s.operandValue a).toInt))) := by
    simp only [exec, execArb, readOperand_of_readable ha, narrow_of_noOverflow hno, finish_ok, afterArb]
  exact ⟨_, hexec, wrap64_congruent _, fun _ => rfl, commits_afterArb .., rfl, sameQueues_afterArb ..⟩

/-- Settles O41. -/
theorem haltHalts : Obligations.HaltHalts := by
  unfold Obligations.HaltHalts
  intro s
  exact ⟨_, execHalt_eq s, rfl, fun _ => rfl, commits_afterHalt s, rfl, sameQueues_afterHalt s⟩

/-- Settles O42: each of the three narrows its exact result. -/
theorem overflowFaults : Obligations.OverflowFaults := by
  unfold Obligations.OverflowFaults
  intro s a b t _ ha
  have hfault : faultsWith s .overflow 0 (.next (s.recordFault ⟨.overflow, 0⟩)) := faultsWith_recordFault s ⟨.overflow, 0⟩
  refine ⟨fun hb ht hover => ?_, fun hb ht hover => ?_, fun hover => ?_⟩
  · rw [exec_add, binaryToTarget_fault ha hb ht (narrow_of_overflow hover)]
    exact hfault
  · rw [exec_mul, binaryToTarget_fault ha hb ht (narrow_of_overflow hover)]
    exact hfault
  · have hexec : exec (.arb a) s = .next (s.recordFault ⟨.overflow, 0⟩) := by
      simp only [exec, execArb, readOperand_of_readable ha, narrow_of_overflow hover, finish_error]
    rw [hexec]
    exact hfault

end Sys2Proof.Machine
end

section
/-! Steps of two ring cores commute (spec/60_exceptions.md R191, R195; decision D21). -/

namespace Sys2Proof.Machine

/-- A core that may step makes the move its step gives. -/
def State.ringMoves (s : State) (i : Nat) (d : RingMove) : Prop :=
  s.ringCanStep i = true ∧ ∃ v, stepCore (s.ringView i) = .next v ∧ d = s.moveTo i v

section Moves

variable {s t : State} {i j : Nat} {d e : RingMove}

/-- A ring step by a core that may step applies its move and settles. -/
theorem ringStepAt_of_moves (hr : s.netStatus = .running) (hi : i < s.nodes.length) (h : s.ringMoves i d) :
    ringStepAt i s = .next (s.ringApply i d).settle := by
  obtain ⟨hcan, v, hv, rfl⟩ := h
  rw [ringStepAt_of_stepCore hr hi hcan hv, State.ringAbsorb_eq]

theorem exists_ringMoves (hcan : s.ringCanStep i = true) : ∃ d, s.ringMoves i d := by
  obtain ⟨v, hv⟩ := stepCore_next (s.ringView i)
  exact ⟨_, hcan, v, hv, rfl⟩

theorem State.ringMoves.enabled (h : s.ringMoves i d) : (s.node i).core.enabled = true := by
  have hcan := h.1
  simp only [State.ringCanStep, State.canStep, Bool.and_eq_true] at hcan
  exact hcan.1.1

/-- No more is taken than the upstream channel holds. -/
theorem State.ringMoves.popped_le (h : s.ringMoves i d) : d.popped ≤ (s.node (upstream s.nodes.length i)).chan.length := by
  obtain ⟨-, v, -, rfl⟩ := h
  simp [State.moveTo]

theorem queueFull_of_le {p : Params} {n m : Nat} (hfit : queueFits p n = true) (h : queueFull p n = false) (hm : m ≤ n) :
    queueFull p m = false := by
  unfold queueFits queueFull at *
  cases hd : p.queueDepth <;> simp_all
  omega

/-- A move of another core leaves a core that may step its move: its input only grows at its end, its output queue only shrinks. -/
theorem State.ringMoves.after (hfit : ∀ n ∈ s.nodes, queueFits s.params n.chan.length = true) (hi : i < s.nodes.length)
    (hj : j < s.nodes.length) (hij : i ≠ j) (hmove : s.ringMoves j e) (hnf : e.core.status ≠ .faulted) (d : RingMove) :
    (s.ringApply i d).ringMoves j e := by
  obtain ⟨hcan, v, hv, rfl⟩ := hmove
  have hup : upstream s.nodes.length i ≠ upstream s.nodes.length j := fun h => hij (upstream_inj hi hj h)
  have hself : (s.ringApply i d).node j =
      ⟨(s.node j).core, if upstream s.nodes.length i = j then (s.node j).chan.drop d.popped else (s.node j).chan⟩ := by
    rw [State.ringApply_node d hi, RingMove.onNode, if_neg hij, if_neg hij, List.append_nil]
  have hinput : ((s.ringApply i d).node (upstream s.nodes.length j)).chan =
      (s.node (upstream s.nodes.length j)).chan ++ if i = upstream s.nodes.length j then d.pushed else [] := by
    rw [State.ringApply_node d hi, RingMove.onNode, if_neg hup]
  have hcore : ((s.ringApply i d).ringView j).core = (s.ringView j).core := by
    rw [State.ringView_core, hself, State.ringView_core]
  have hhead : ∀ x xs, (s.ringView j).inq = x :: xs → ∃ ys, ((s.ringApply i d).ringView j).inq = x :: ys := by
    intro x xs hx
    rw [State.ringView_inq, State.ringApply_length, hinput, List.map_append]
    rw [State.ringView_inq] at hx
    exact ⟨_, by rw [hx, List.cons_append]⟩
  have hroom : queueFull (s.ringView j).params (s.ringView j).outq.length = false →
      queueFull ((s.ringApply i d).ringView j).params ((s.ringApply i d).ringView j).outq.length = false := by
    intro h
    refine queueFull_of_le (hfit _ (State.node_mem hj)) h ?_
    rw [State.ringView_outq, hself]
    simp only
    split <;> simp
  obtain ⟨v', hv', hc, hpop, hpush, hcan'⟩ :=
    stepCore_congr (s := s.ringView j) (s' := (s.ringApply i d).ringView j) rfl hcore hcan hv hnf hhead hroom
  exact ⟨hcan', v', hv', by simp only [State.moveTo, hc, hpop, hpush]⟩

/-- At a core's own node another core's move at most takes from the front of the channel, where nothing was output. -/
theorem RingMove.onNode_comm_own {n : Nat} {m : Node} (hij : i ≠ j) (hup : upstream n i ≠ upstream n j)
    (he : upstream n j = i → e.popped ≤ m.chan.length) :
    e.onNode n j i (d.onNode n i i m) = d.onNode n i i (e.onNode n j i m) := by
  by_cases huj : upstream n j = i
  · have hui : upstream n i ≠ i := fun h => hup (h.trans huj.symm)
    simp [RingMove.onNode, hij.symm, hui, huj, List.drop_append_of_le_length (he huj)]
  · simp [RingMove.onNode, hij.symm, huj]

/-- Moves of two cores make the same change in either order: each channel has one producer and one consumer. -/
theorem RingMove.onNode_comm {n k : Nat} {m : Node} (hij : i ≠ j) (hup : upstream n i ≠ upstream n j)
    (hd : upstream n i = k → d.popped ≤ m.chan.length) (he : upstream n j = k → e.popped ≤ m.chan.length) :
    e.onNode n j k (d.onNode n i k m) = d.onNode n i k (e.onNode n j k m) := by
  by_cases hi : i = k
  · subst hi
    exact RingMove.onNode_comm_own hij hup he
  · by_cases hj : j = k
    · subst hj
      exact (RingMove.onNode_comm_own hij.symm hup.symm hd).symm
    · by_cases hui : upstream n i = k
      · have huj : upstream n j ≠ k := fun h => hup (hui.trans h.symm)
        simp [RingMove.onNode, hi, hj, huj]
      · simp [RingMove.onNode, hi, hj, hui]

theorem State.ringApply_comm (hi : i < s.nodes.length) (hj : j < s.nodes.length) (hij : i ≠ j) (hd : s.ringMoves i d)
    (he : s.ringMoves j e) : (s.ringApply i d).ringApply j e = (s.ringApply j e).ringApply i d := by
  have hup : upstream s.nodes.length i ≠ upstream s.nodes.length j := fun h => hij (upstream_inj hi hj h)
  have hnodes : ((s.ringApply i d).ringApply j e).nodes = ((s.ringApply j e).ringApply i d).nodes := by
    refine List.ext_getElem (by simp) fun k hk _ => ?_
    have hk' : k < s.nodes.length := by simpa using hk
    have hnode : s.node k = s.nodes[k] := State.node_eq hk'
    simp only [State.ringApply, List.getElem_mapIdx, List.length_mapIdx]
    exact RingMove.onNode_comm hij hup (fun h => by rw [← hnode, ← h]; exact hd.popped_le)
      (fun h => by rw [← hnode, ← h]; exact he.popped_le)
  have hlast : i + 1 = s.nodes.length → j + 1 ≠ s.nodes.length := by omega
  have hresult : ((s.ringApply i d).ringApply j e).netResult = ((s.ringApply j e).ringApply i d).netResult := by
    by_cases h : i + 1 = s.nodes.length <;> simp_all [State.ringApply]
  have hvalid : ((s.ringApply i d).ringApply j e).netResultValid = ((s.ringApply j e).ringApply i d).netResultValid := by
    by_cases h : i + 1 = s.nodes.length <;> simp_all [State.ringApply]
  calc (s.ringApply i d).ringApply j e
      = { s with
          nodes := ((s.ringApply i d).ringApply j e).nodes, netResult := ((s.ringApply i d).ringApply j e).netResult,
          netResultValid := ((s.ringApply i d).ringApply j e).netResultValid } := rfl
    _ = (s.ringApply j e).ringApply i d := by rw [hnodes, hresult, hvalid]; rfl

/-- A running network that settles without failing, some core of it ready and able to step, goes on as it is. -/
theorem State.settle_of_canStep (hnf : s.settle.netStatus ≠ .failed) (hj : j < s.nodes.length) (hcan : s.ringCanStep j = true) :
    s.settle = s := by
  have hready : (s.node j).core.status = .ready := by
    simp only [State.ringCanStep, State.canStep, Bool.and_eq_true] at hcan
    exact ((CoreRegs.enabled_iff _).mp hcan.1.1).1
  rcases s.settle_cases with ⟨_, -, hs⟩ | ⟨-, st, hs, hst⟩
  · rw [hs] at hnf
    exact absurd rfl hnf
  · rcases hst with ⟨hall, -⟩ | ⟨-, -, rfl⟩ | ⟨-, hno, -⟩
    · simpa [hready] using hall _ (State.node_mem hj)
    · exact hs
    · simp [hno j hj] at hcan

/-- A move that leaves its core FAULTED fails the network. -/
theorem State.settle_failed_of_faulted (hi : i < s.nodes.length) (hf : (s.node i).core.status = .faulted) :
    s.settle.netStatus = .failed := by
  rcases s.settle_cases with ⟨_, -, hs⟩ | ⟨hnone, -⟩
  · rw [hs]
  · exact absurd hf (hnone _ (State.node_mem hi))

theorem ringStepAt_of_failed (h : s.netStatus = .failed) (i : Nat) : ringStepAt i s = .next s := by
  simp [ringStepAt, h]

/-- A ring step does not lead out of a failed network. -/
theorem netStatus_ne_failed_of_ringStepAt (hstep : ringStepAt j s = .next t) (h : t.netStatus ≠ .failed) : s.netStatus ≠ .failed := by
  intro hf
  cases hstep.symm.trans (ringStepAt_of_failed hf j)
  exact h hf

end Moves

/-- Settles O59: neither core faults, so each still makes its move after the other's (`State.ringMoves.after`), and the moves commute. -/
theorem ringStepsOfTwoCoresCommute : Obligations.RingStepsOfTwoCoresCommute := by
  unfold Obligations.RingStepsOfTwoCoresCommute
  intro s si sj sij sji i j h hr hi hj hij hcani hcanj hsi hsj hsij hsji hnij hnji
  obtain ⟨d, hd⟩ := exists_ringMoves hcani
  obtain ⟨e, he⟩ := exists_ringMoves hcanj
  cases (ringStepAt_of_moves hr hi hd).symm.trans hsi
  cases (ringStepAt_of_moves hr hj he).symm.trans hsj
  have hokd := netStatus_ne_failed_of_ringStepAt hsij hnij
  have hoke := netStatus_ne_failed_of_ringStepAt hsji hnji
  have hnfd : d.core.status ≠ .faulted := fun hf => hokd (State.settle_failed_of_faulted (i := i) (by simpa using hi) (by
    rw [State.ringApply_node d hi, RingMove.onNode, if_pos rfl]
    exact hf))
  have hnfe : e.core.status ≠ .faulted := fun hf => hoke (State.settle_failed_of_faulted (i := j) (by simpa using hj) (by
    rw [State.ringApply_node e hj, RingMove.onNode, if_pos rfl]
    exact hf))
  have hd' := State.ringMoves.after h.net.channels hj hi hij.symm hd hnfd e
  have he' := State.ringMoves.after h.net.channels hi hj hij he hnfe d
  rw [State.settle_of_canStep hokd (by simpa using hj) he'.1,
    ringStepAt_of_moves (s := s.ringApply i d) hr (by simpa using hj) he'] at hsij
  rw [State.settle_of_canStep hoke (by simpa using hi) hd'.1,
    ringStepAt_of_moves (s := s.ringApply j e) hr (by simpa using hi) hd'] at hsji
  cases hsij
  cases hsji
  rw [State.ringApply_comm hi hj hij hd he]

end Sys2Proof.Machine
end

section
/-! The ring step's statements: what it runs, which channels it moves, whom it leaves alone, and the status it leaves
(spec/60_exceptions.md R190-R201). -/

namespace Sys2Proof.Machine

/-! What a ring step runs. -/

/-- Two states alike in everything outside the ring differ in the ring alone. -/
theorem State.eq_of_sameBesideRing {s t : State} (hp : t.params = s.params) (him : t.image = s.image) (hpc : t.startPc = s.startPc)
    (hc : t.core = s.core) (hin : t.inq = s.inq) (heos : t.inEos = s.inEos) (hout : t.outq = s.outq) (htick : t.tick = s.tick) :
    t = { s with
          nodes := t.nodes, netStatus := t.netStatus, netResult := t.netResult, netResultValid := t.netResultValid,
          netFailCore := t.netFailCore } := by
  cases s
  cases t
  simp_all

theorem State.ringView_enabled {s : State} {i : Nat} (hcan : s.ringCanStep i = true) : (s.ringView i).core.enabled = true := by
  obtain ⟨d, hd⟩ := exists_ringMoves hcan
  exact hd.enabled

/-- Settles O11: a settled ring keeps the stepped core's node, since no other core is FAULTED (`State.settle_node_of_first`). -/
theorem ringStepRunsTheDecodedInstruction : Obligations.RingStepRunsTheDecodedInstruction := by
  unfold Obligations.RingStepRunsTheDecodedInstruction
  constructor
  · intro s i hr hi hcan
    obtain ⟨v, hv⟩ := stepCore_next (s.ringView i)
    refine ⟨v, _, hv, ringStepAt_of_stepCore hr hi hcan hv, rfl, fun h0 => ?_, by simp, ?_⟩
    · rw [State.settle_node_of_first (State.ringAbsorb_not_faulted v h0), State.ringAbsorb_node v hi, if_pos rfl]
    · exact State.eq_of_sameBesideRing (by simp) (by simp) (by simp) (by simp) (by simp) (by simp) (by simp) (by simp)
  · intro s i ins hr hi hcan _ hd hcells
    obtain ⟨v, hv⟩ := stepCore_next (s.ringView i)
    refine ⟨v, ?_, ringStepAt_of_stepCore hr hi hcan hv⟩
    rw [← stepCore_of_fetch (State.ringView_enabled hcan) ((fetch_ok_iff _ _).mpr ⟨hd, hcells⟩), hv]

/-- Settles O53: a core that may step is picked by its place among those that may. -/
theorem everyReadyCoreCanBeChosen : Obligations.EveryReadyCoreCanBeChosen := by
  unfold Obligations.EveryReadyCoreCanBeChosen
  constructor
  · intro s i hi hcan
    have hmem : i ∈ s.ringReady := by simp [State.ringReady, hi, hcan]
    have hlt : s.ringReady.idxOf i < s.ringReady.length := List.idxOf_lt_length_iff.mpr hmem
    exact ⟨s.ringReady.idxOf i, by simp [State.ringPick, Nat.mod_eq_of_lt hlt, hlt]⟩
  · intro s hr hc
    obtain ⟨hi, hcan⟩ := State.ringPick_mayStep (Config.schedule s.tick) hc
    obtain ⟨v, hv⟩ := stepCore_next (s.ringView (s.ringPick (Config.schedule s.tick)))
    have hstep := ringStepAt_of_stepCore hr hi hcan hv
    exact ⟨_, _, rfl, hi, hcan, hstep, by rw [step_of_running hr, ringStep, hstep]⟩

/-! The channels. -/

/-- Node `k`'s channel after core `i` moved: it loses what the core took if it is upstream, and gets what the core output if it is its
own. -/
theorem State.ringApply_settle_chan {s : State} {i : Nat} (d : RingMove) (hi : i < s.nodes.length) (k : Nat) :
    ((s.ringApply i d).settle.node k).chan =
      (if upstream s.nodes.length i = k then (s.node k).chan.drop d.popped else (s.node k).chan) ++
        (if i = k then d.pushed else []) := by
  rw [State.settle_node_chan, State.ringApply_node d hi, RingMove.onNode]

/-- The stepped core's memory is as its step left it, whatever the network's status. -/
theorem State.ringApply_settle_mem {s : State} {i : Nat} (d : RingMove) (hi : i < s.nodes.length) :
    ((s.ringApply i d).settle.node i).core.mem = d.core.mem := by
  have hmove : ((s.ringApply i d).node i).core = d.core := by rw [State.ringApply_node d hi, RingMove.onNode, if_pos rfl]
  rcases (s.ringApply i d).settle_node i with h | ⟨-, h⟩ <;> rw [h, hmove]

/-- The move of an OUT with a readable operand: its value is output and nothing taken. -/
theorem State.ringMoves_out {s : State} {i : Nat} {a : Param} (hcan : s.ringCanStep i = true)
    (hf : fetch (s.ringView i) = .ok (.out a)) (ha : (s.ringView i).readable a) :
    ∃ c, s.ringMoves i ⟨c, 0, [(s.ringView i).operandValue a]⟩ := by
  have hen := State.ringView_enabled hcan
  have hroom : (s.ringView i).params.queueDepth ≠ some (s.ringView i).outq.length := fun h => by
    have hwait := waitOut_of_outWait hen hf ha ((queueFull_iff _ _).mpr h)
    simp [State.ringCanStep, State.canStep, hwait] at hcan
  have hstep : stepCore (s.ringView i) = .next (afterOut (s.ringView i) a) := by
    rw [stepCore_of_fetch hen hf, exec_out_of_room ha hroom]
  exact ⟨(afterOut (s.ringView i) a).core, hcan, _, hstep, by simp [State.moveTo, afterOut]⟩

/-- The move of an IN with a good target and a value to take: it is taken and stored, and nothing output. -/
theorem State.ringMoves_inp {s : State} {i : Nat} {p : Param} {v : Word} {rest : List Word} (hcan : s.ringCanStep i = true)
    (hf : fetch (s.ringView i) = .ok (.inp p)) (ht : (s.ringView i).targetable p)
    (hq : (s.node (upstream s.nodes.length i)).chan = v :: rest) :
    ∃ c, s.ringMoves i ⟨c, 1, []⟩ ∧ Memory.read c.mem ((s.ringView i).slotAddr p) = v := by
  obtain ⟨u, hexec, hread, -, hin, -, hout, -⟩ :=
    inStoresTheOldestToken (s.ringView i) p v (rest.map .val) ht (by rw [State.ringView_inq, hq, List.map_cons])
  have hstep := (stepCore_of_fetch (State.ringView_enabled hcan) hf).trans hexec
  exact ⟨u.core, ⟨hcan, u, hstep, by simp [State.moveTo, hin, hout, hq]⟩, hread⟩

/-- Settles O54: the move takes nothing and outputs the operand's value. -/
theorem ringOutputFeedsTheNextCore : Obligations.RingOutputFeedsTheNextCore := by
  unfold Obligations.RingOutputFeedsTheNextCore
  intro s i a hr hi hcan hf ha
  obtain ⟨c, hmove⟩ := State.ringMoves_out hcan hf ha
  refine ⟨_, ringStepAt_of_moves hr hi hmove, ?_, fun j hj => ?_, fun hlast => ?_, fun hlast => ?_⟩
  · simp [State.ringApply_settle_chan _ hi]
  · simp [State.ringApply_settle_chan _ hi, Ne.symm hj]
  · simp [State.ringApply, hlast]
  · simp [State.ringApply, hlast]

/-- Settles O55: the move takes one value and outputs nothing. -/
theorem ringInputTakesTheOldestValue : Obligations.RingInputTakesTheOldestValue := by
  unfold Obligations.RingInputTakesTheOldestValue
  intro s i p v rest hr hi hcan hf ht hq
  obtain ⟨c, hmove, hread⟩ := State.ringMoves_inp hcan hf ht hq
  refine ⟨_, ringStepAt_of_moves hr hi hmove, ?_, fun j hj => ?_, ?_, ?_, ?_⟩
  · simp [State.ringApply_settle_chan _ hi, hq]
  · simp [State.ringApply_settle_chan _ hi, Ne.symm hj]
  · rwa [State.ringApply_settle_mem _ hi]
  · simp [State.ringApply]
  · simp [State.ringApply]

/-! The other cores and the status. -/

/-- Settles O56: the move changes no other core, and settling at most clears its `RUN`. -/
theorem ringStepsLeaveOtherCoresAlone : Obligations.RingStepsLeaveOtherCoresAlone := by
  unfold Obligations.RingStepsLeaveOtherCoresAlone
  intro s t i j hs hji
  rcases ringStepAt_cases i s with ⟨⟨-, hi, -⟩, v, -, hstep⟩ | ⟨-, hstep⟩
  · cases hstep.symm.trans hs
    have hother : ((s.ringAbsorb i v).node j).core = (s.node j).core := by
      rw [State.ringAbsorb_eq, State.ringApply_node _ hi, RingMove.onNode, if_neg (Ne.symm hji)]
    rcases (s.ringAbsorb i v).settle_node j with hn | ⟨hfailed, hn⟩
    · rw [hn, hother]
      exact ⟨rfl, .inl rfl⟩
    · rw [hn, hother]
      exact ⟨rfl, .inr ⟨hfailed, rfl⟩⟩
  · cases hstep.symm.trans hs
    exact ⟨rfl, .inl rfl⟩

/-- The status a settled network has, by the conditions of R199 in their order. -/
theorem State.settle_netStatus (s : State) :
    s.settle.netStatus =
      (if ∃ n ∈ s.settle.nodes, n.core.status = .faulted then .failed
       else if ∀ n ∈ s.settle.nodes, n.core.status = .halted then (if s.settle.netResultValid = true then .done else .noResult)
       else if ∀ j < s.settle.nodes.length, s.settle.ringCanStep j = false then .deadlock
       else s.netStatus) := by
  rcases s.settle_cases with ⟨j, hj, hs⟩ | ⟨hnf, st, hs, hst⟩
  · obtain ⟨hl, hf, -⟩ := List.findIdx?_eq_some_iff_getElem.mp hj
    have hfaulted : ∃ n ∈ abortOthers j s.nodes, n.core.status = .faulted := by
      refine ⟨s.nodes[j], List.mem_of_getElem? (i := j) ?_, by simpa using hf⟩
      rw [abortOthers_getElem?, List.getElem?_eq_getElem hl]
      simp
    rw [hs, if_pos hfaulted]
  · have hnone : ¬ ∃ n ∈ s.nodes, n.core.status = .faulted := fun ⟨n, hn, hf⟩ => hnf n hn hf
    have hcan : ∀ j, State.ringCanStep { s with netStatus := st } j = s.ringCanStep j := fun _ => rfl
    rw [hs]
    simp only [hcan]
    rw [if_neg hnone]
    rcases hst with ⟨hall, rfl⟩ | ⟨hall, ⟨j, hj, hstep⟩, rfl⟩ | ⟨hall, hno, rfl⟩
    · rw [if_pos hall]
    · rw [if_neg hall, if_neg fun h => by simp [h j hj] at hstep]
    · rw [if_neg hall, if_pos hno]

/-- Settles O58: a ring step settles a network that was running. -/
theorem networkStatusAfterAStep : Obligations.NetworkStatusAfterAStep := by
  unfold Obligations.NetworkStatusAfterAStep
  intro s t i hr hi hcan hs
  obtain ⟨v, hv⟩ := stepCore_next (s.ringView i)
  cases (ringStepAt_of_stepCore hr hi hcan hv).symm.trans hs
  rw [State.settle_netStatus, State.ringAbsorb_netStatus, hr]

end Sys2Proof.Machine
end

section
/-! The text adapters (spec/60_exceptions.md R205, R206). -/

namespace Sys2Proof.Machine

theorem isDigitChar_plain {c : Char} (h : isDigitChar c) : isBlank c = false ∧ c ≠ '\r' ∧ c ≠ '\n' ∧ c ≠ '-' ∧ c ≠ '+' := by
  obtain ⟨d, hd, rfl⟩ := h
  obtain ⟨-, hnl, hminus, hplus, hcr, hblank⟩ := digit_char hd
  exact ⟨hblank, hcr, hnl, hminus, hplus⟩

/-- A value's text is an optional minus and the digits of its size. -/
theorem decimal_eq (v : Word) :
    ∃ ds, ds ≠ [] ∧ (∀ c ∈ ds, isDigitChar c) ∧ digitsFrom 0 ds = some v.toInt.natAbs ∧
      decimal v = if v.toInt < 0 then '-' :: ds else ds := by
  have hlo := BitVec.le_toInt v
  have hhi := BitVec.toInt_lt (x := v)
  obtain ⟨ds, hds, hne, hdigit, hread⟩ := digitsOf_spec 20 v.toInt.natAbs [] (by omega) (by omega)
  exact ⟨ds, hne, hdigit, hread, by rw [decimal, hds, List.append_nil]⟩

/-- The text of a value holds no blank, no carriage return and no newline. -/
theorem decimal_plain (v : Word) : ∀ c ∈ decimal v, isBlank c = false ∧ c ≠ '\r' ∧ c ≠ '\n' := by
  obtain ⟨ds, -, hdigit, -, hdec⟩ := decimal_eq v
  have hds : ∀ c ∈ ds, isBlank c = false ∧ c ≠ '\r' ∧ c ≠ '\n' := fun c hc => by
    obtain ⟨hblank, hcr, hnl, -⟩ := isDigitChar_plain (hdigit c hc)
    exact ⟨hblank, hcr, hnl⟩
  intro c hc
  rw [hdec] at hc
  split at hc
  · rcases List.mem_cons.mp hc with rfl | hc
    · decide
    · exact hds c hc
  · exact hds c hc

/-- The text of a value parses as its integer. -/
theorem parseInt_decimal (v : Word) : parseInt (decimal v) = some v.toInt := by
  obtain ⟨ds, hne, hdigit, hread, hdec⟩ := decimal_eq v
  obtain ⟨c, rest, rfl⟩ := List.exists_cons_of_ne_nil hne
  obtain ⟨-, -, -, hminus, hplus⟩ := isDigitChar_plain (hdigit c (by simp))
  have hnat : parseNat (c :: rest) = some v.toInt.natAbs := hread
  rw [hdec]
  by_cases hneg : v.toInt < 0
  · rw [if_pos hneg, parseInt, if_pos rfl, hnat, Option.map_some]
    congr 1
    omega
  · rw [if_neg hneg, parseInt, if_neg hminus, if_neg hplus, hnat, Option.map_some]
    congr 1
    omega

/-- A line that is the text of a value is read as it. -/
theorem tokenOfLine_decimal (v : Word) : tokenOfLine (decimal v) = .val v := by
  have hfit : fitsWord v.toInt = true := (fitsWord_iff _).mpr ⟨BitVec.le_toInt v, BitVec.toInt_lt⟩
  have htrim := trimLine_of (fun c hc => (decimal_plain v c hc).1) (fun c hc => (decimal_plain v c hc).2.1)
  simp only [tokenOfLine, htrim, parseInt_decimal, hfit, if_true, wrap64, BitVec.ofInt_toInt]

/-- The lines of the output text are the values' texts. -/
theorem linesFrom_outputText (vs : List Word) : linesFrom [] (outputText vs) = vs.map decimal := by
  induction vs with
  | nil => rfl
  | cons v vs ih =>
    rw [outputText, linesFrom_append _ _ _ fun c hc => (decimal_plain v c hc).2.2, ih]
    rfl

/-- Settles O60: each line is read as the value it was written for. -/
theorem outputTextReadsBack : Obligations.OutputTextReadsBack := by
  unfold Obligations.OutputTextReadsBack
  intro vs
  rw [inputOps, linesFrom_outputText, List.map_map]
  congr 1
  exact List.map_congr_left fun v _ => by rw [Function.comp_apply, tokenOfLine_decimal, pushOp]

end Sys2Proof.Machine
end
